-- ==== Sys2Proof/Word.lean ====
section
/-! DEFINITION. The word types of the block (00_scope.md R8, 30_encoding.md R50). -/

namespace Sys2Proof

/-- `uint8` (R8): one byte of a command, a parameter or a colour channel. -/
abbrev Byte := BitVec 8

/-- `uint16` (R8): a bus word, a colour, a window coordinate, an operand field. -/
abbrev Word := BitVec 16

/-- One operation descriptor `cmd[87:0]` (R50). -/
abbrev Descriptor := BitVec 88

end Sys2Proof
end

