-- ==== Sys2Proof/Machine/Operands.lean ====
section
/-! DEFINITION. The operand helpers of 00_scope.md R8 that the meanings use: byte halves, the word of a
coordinate, absolute value, sign, mod 4. Operand fields themselves are read in Decode.lean. -/

namespace Sys2Proof.Machine

/-- `hi8(v) = v[15:8]` (R8). -/
def hi8 (v : Word) : Byte := v.extractLsb' 8 8

/-- `lo8(v) = v[7:0]` (R8). -/
def lo8 (v : Word) : Byte := v.extractLsb' 0 8

/-- A coordinate as the `uint16` that `setAddrWindow` encodes. Drawing operations hand it values in 0..32766 only,
where nothing is lost (42_addr_window.md R90). -/
def coordWord (v : Int) : Word := BitVec.ofInt 16 v

/-- `|a|` (R8). -/
def absVal (a : Int) : Int := if a < 0 then -a else a

/-- `sign(a)`: +1 for `a > 0`, −1 for `a < 0` (R8); never applied to 0. -/
def signVal (a : Int) : Int := if a < 0 then -1 else 1

/-- `r mod 4` of an unsigned rotation operand (43_orientation.md R95). -/
def mod4 (r : Byte) : Fin 4 := ⟨r.toNat % 4, by omega⟩

end Sys2Proof.Machine
end

