-- ==== Sys2Proof/Config.lean ====
section
/-! DEFINITION. What an implementation fixes (00_scope.md R5 to R7): the named parameters the spec leaves
open, as ONE constant with no body, and the values the source itself fixes. -/

namespace Sys2Proof

/-- The open parameters of `00_scope.md` R6, each in a type that holds exactly the values R6 allows. They are
fixed before reset is released and never change (10_state.md R27), so they are no part of State. -/
structure Params where
  /-- `P_PHYS_W - 1`, so that `1 ≤ P_PHYS_W ≤ 32767`. -/
  physWPred : Fin 32767
  /-- `P_PHYS_H - 1`, so that `1 ≤ P_PHYS_H ≤ 32767`. -/
  physHPred : Fin 32767
  /-- `P_MADCTL[0]` -/
  madctl0 : Byte
  /-- `P_MADCTL[1]` -/
  madctl1 : Byte
  /-- `P_MADCTL[2]` -/
  madctl2 : Byte
  /-- `P_MADCTL[3]` -/
  madctl3 : Byte
  /-- `P_PIXFMT16`, the byte after command 0x3A -/
  pixfmt16 : Byte
  /-- `P_BRIGHT`, the byte after command 0x51 -/
  bright : Byte
  /-- `P_ROT_INIT`, the rotation INIT sets -/
  rotInit : Fin 4
  /-- `P_RS_CMD`: electrical level of RS that means "command" -/
  rsCmd : Bool
  /-- `P_CS_ACTIVE` -/
  csActive : Bool
  /-- `P_RD_IDLE` -/
  rdIdle : Bool
  /-- `P_WR_IDLE` -/
  wrIdle : Bool
  /-- `P_RST_ACTIVE` -/
  rstActive : Bool
deriving DecidableEq, Repr, Inhabited

/-- `P_PHYS_W`, the physical panel width in pixels (R6). -/
def Params.physW (p : Params) : Nat := p.physWPred.val + 1

/-- `P_PHYS_H`, the physical panel height in pixels (R6). -/
def Params.physH (p : Params) : Nat := p.physHPred.val + 1

/-- The parameters of this block. No body: no proof can lean on a value of one (93_implementation_defined.md
U12; log entry 1). -/
opaque Config.params : Params

/-- The defaults of R6, which the vectors of 95_test_vectors.md use. Nothing but the model's own tests names
them: the machine runs with `Config.params`. -/
def Params.sample : Params where
  physWPred := 239
  physHPred := 319
  madctl0 := 0x48
  madctl1 := 0x28
  madctl2 := 0x88
  madctl3 := 0xE8
  pixfmt16 := 0x55
  bright := 0xFF
  rotInit := 0
  rsCmd := false
  csActive := false
  rdIdle := true
  wrIdle := false
  rstActive := false

end Sys2Proof
end

