-- ==== Sys2Proof/Syntax.lean ====
section
/-! DEFINITION. The fourteen operations of 30_encoding.md R52 (one constructor per row of spec/opcode_table.json)
and the fields of a descriptor (R50). -/

namespace Sys2Proof

/-- One host operation with its operands as R54 reads them: `int16` operands as exact integers (their range is
WellFormed's business), `uint16` and `uint8` operands as bits, `on` as a truth value. -/
inductive Instr
  /-- `0x01` INIT: `begin()` / `init()` (R80) -/
  | init
  /-- `0x02` WRCMD: `writeCommand(byte)` (R74) -/
  | wrcmd (byte : Byte)
  /-- `0x03` WRDAT8: `writeData8(byte)` (R75) -/
  | wrdat8 (byte : Byte)
  /-- `0x04` WRDAT16: `writeData16(word)` (R76) -/
  | wrdat16 (word : Word)
  /-- `0x05` SETWIN: `setAddrWindow(x0,y0,x1,y1)` (R90) -/
  | setwin (x0 y0 x1 y1 : Word)
  /-- `0x06` SETROT: `setRotation(r)` (R95) -/
  | setrot (r : Byte)
  /-- `0x07` INVERT: `invertDisplay(on)` (R98) -/
  | invert (on : Bool)
  /-- `0x08` PIXEL: `drawPixel(x,y,color)` (R105) -/
  | pixel (x y : Int) (color : Word)
  /-- `0x09` VLINE: `drawFastVLine(x,y,h,color)` (R106) -/
  | vline (x y h : Int) (color : Word)
  /-- `0x0A` HLINE: `drawFastHLine(x,y,w,color)` (R107) -/
  | hline (x y w : Int) (color : Word)
  /-- `0x0B` FILLRECT: `fillRect(x,y,w,h,color)` (R115) -/
  | fillrect (x y w h : Int) (color : Word)
  /-- `0x0C` FILLSCR: `fillScreen(color)` (R116) -/
  | fillscr (color : Word)
  /-- `0x0D` LINE: `drawLine(x0,y0,x1,y1,color)` (R120) -/
  | line (x0 y0 x1 y1 : Int) (color : Word)
  /-- `0x0E` COLOR565: `color565(r,g,b)` (R135) -/
  | color565 (r g b : Byte)
deriving DecidableEq, Repr

/-- The fields of a descriptor (R50); also what the descriptor latch of 10_state.md R12 holds. -/
structure Fields where
  /-- bits 87:80 -/
  opc : Byte
  /-- bits 79:64 -/
  f0 : Word
  /-- bits 63:48 -/
  f1 : Word
  /-- bits 47:32 -/
  f2 : Word
  /-- bits 31:16 -/
  f3 : Word
  /-- bits 15:0 -/
  f4 : Word
deriving DecidableEq, Repr

end Sys2Proof
end

