-- ==== Sys2Proof/Machine/State.lean ====
section
/-! DEFINITION. The state of the block (10_state.md R10), its outputs (00_scope.md R9), its host port (R23), why a
step can stop, and the state after hardware reset (R25). -/

namespace Sys2Proof.Machine

/-- `MODE` (R14). -/
inductive Mode
  | uninit
  | ready
deriving DecidableEq, Repr

/-- Symbolic level of register-select (R10). -/
inductive RsLevel
  | cmd
  | data
deriving DecidableEq, Repr

/-- Symbolic level of RD and WR (R10). -/
inductive StrobeLevel
  | idle
  | active
deriving DecidableEq, Repr

/-- Symbolic level of CS and RST (R10). -/
inductive SelectLevel
  | active
  | inactive
deriving DecidableEq, Repr

/-- `PIN[...]`: the levels held on the 21 output lines (R19). Bit `i` of `d` is line D`i`. -/
structure Pins where
  rs : RsLevel
  cs : SelectLevel
  rd : StrobeLevel
  wr : StrobeLevel
  rst : SelectLevel
  d : Word
deriving DecidableEq, Repr

/-- A control pin together with the level written to it (R9, R70). -/
inductive PinWrite
  | rs (l : RsLevel)
  | cs (l : SelectLevel)
  | rd (l : StrobeLevel)
  | wr (l : StrobeLevel)
  | rst (l : SelectLevel)
deriving DecidableEq, Repr

/-- A value on the data lines with its width: 8 bits on D[7:0] or 16 bits on D[15:0] (R9, R32). -/
inductive BusValue
  | bits8 (b : Byte)
  | bits16 (w : Word)
deriving DecidableEq, Repr

/-- One event of the output trace (R9). -/
inductive Event
  /-- `PinWrite(p, l)` -/
  | pinWrite (p : PinWrite)
  /-- `DataWrite(8, v)` or `DataWrite(16, v)` -/
  | dataWrite (v : BusValue)
  /-- `Delay(n)`: at least `n` milliseconds pass -/
  | delay (ms : Nat)
deriving DecidableEq, Repr

/-- One line of an operation's pseudocode, expanded: an event, or a write of block state. -/
inductive Action
  | emit (e : Event)
  /-- `ROT <- q; (WIDTH, HEIGHT) <- ...` (R95) -/
  | geometry (rot : Fin 4) (width height : Nat)
  /-- `RES <- v` (R135) -/
  | result (v : Word)
  /-- `MODE <- READY` (R80) -/
  | ready
deriving DecidableEq, Repr

/-- What the host's side of the port shows at one moment the block samples it (R23, R25). -/
inductive HostInput
  /-- `cmd_valid = 0`, reset not asserted -/
  | idle
  /-- `cmd_valid = 1` with this descriptor on `cmd` -/
  | present (cmd : Descriptor)
  /-- the block's reset input asserted -/
  | hardwareReset
deriving DecidableEq, Repr

/-- The block raises no exception and cannot fail (60_exceptions.md R150, R154), so no step ends in a fault:
the type has no constructor. -/
inductive Fault
deriving DecidableEq, Repr

/-- Why a step has no meaning. -/
inductive Refusal
  /-- Raised by `exec` for an operation whose meaning is not written. Safe: nothing can be proved of it. -/
  | notModelled (mnemonic : String)
  /-- Raised by `step` for a descriptor with a reserved opcode, "no meaning: refused" (30_encoding.md R55). Safe. -/
  | reservedOpcode (opc : Byte)
  /-- Raised at acceptance of any operation but INIT and COLOR565 while `MODE = UNINIT`, "no meaning: refused"
  (60_exceptions.md R156). Safe. -/
  | notReady
deriving DecidableEq, Repr

/-- The state. The first group is R10's list; `todo` is R11's position inside the running operation; `trace` and
`inputs` are the two sides of the block's boundary held as data (log entries 3, 4 and 6). -/
structure State where
  /-- `MODE` -/
  mode : Mode
  /-- `ROT` -/
  rot : Fin 4
  /-- `WIDTH` -/
  width : Nat
  /-- `HEIGHT` -/
  height : Nat
  /-- `RES` -/
  res : Word
  /-- `BUSY` -/
  busy : Bool
  /-- `PIN[...]` -/
  pins : Pins
  /-- `OPC`, `F0..F4` -/
  latch : Fields
  /-- what is left of the running operation's expansion; used only while `BUSY = 1` (R11) -/
  todo : List Action
  /-- the output trace, oldest event first (R9) -/
  trace : List Event
  /-- what the host shows at the block's next samples, the next one first -/
  inputs : List HostInput
deriving DecidableEq, Repr

/-- Pin levels after hardware reset (R25). -/
def Pins.reset : Pins where
  rs := .data
  cs := .inactive
  rd := .idle
  wr := .idle
  rst := .inactive
  d := 0

/-- The block right after hardware reset (R25). DESIGN CHOICE (log entry 2): R25 leaves ROT, WIDTH, HEIGHT, RES and
the latch unspecified; they hold the least value of their range. -/
def State.reset : State where
  mode := .uninit
  rot := 0
  width := 1
  height := 1
  res := 0
  busy := false
  pins := Pins.reset
  latch := ⟨0, 0, 0, 0, 0, 0⟩
  todo := []
  trace := []
  inputs := []

end Sys2Proof.Machine
end

