-- ==== Sys2Proof/Machine/Ops.lean ====
section
/-! DEFINITION. The shared operations: performing events and state writes, the GPIO bus adapter (40_bus_protocol.md
R70 to R72), the framer (R73), its three framed writes (R74 to R76), and acceptance by mode (60_exceptions.md R156).
Procedures are lists of events in pseudocode order, the "trace suffix" of 10_state.md R11. The block has no
exception entry or return to share (60_exceptions.md R150, R154, R155). -/

namespace Sys2Proof.Machine

/-- `PIN[p] <- l` (R70). -/
def Pins.write (p : Pins) : PinWrite → Pins
  | .rs l => { p with rs := l }
  | .cs l => { p with cs := l }
  | .rd l => { p with rd := l }
  | .wr l => { p with wr := l }
  | .rst l => { p with rst := l }

/-- The data lines after a masked group write: an 8-bit value drives D[7:0] and leaves D[15:8], a 16-bit value
drives all (R71). -/
def Pins.drive (p : Pins) : BusValue → Pins
  | .bits8 b => { p with d := hi8 p.d ++ b }
  | .bits16 w => { p with d := w }

/-- The pins after one event (R9). -/
def Pins.after (p : Pins) : Event → Pins
  | .pinWrite w => p.write w
  | .dataWrite v => p.drive v
  | .delay _ => p

/-- The pins after a list of events, first to last. -/
def Pins.afterAll (p : Pins) (es : List Event) : Pins := es.foldl Pins.after p

/-- One line of pseudocode: an event changes the pins and is appended to the trace, a state write changes its
state (R9, R95, R135, R80). -/
def State.act (s : State) : Action → State
  | .emit e => { s with pins := s.pins.after e, trace := s.trace ++ [e] }
  | .geometry q w h => { s with rot := q, width := w, height := h }
  | .result v => { s with res := v }
  | .ready => { s with mode := .ready }

/-- The lines of an expansion, first to last. -/
def State.perform (s : State) (as : List Action) : State := as.foldl State.act s

/-- Events as lines of an expansion. -/
def emits (es : List Event) : List Action := es.map .emit

/-- `setPin(p, l)` (R70): one event, also when the level is unchanged. -/
def setPin (w : PinWrite) : List Event := [.pinWrite w]

/-- `setPins(mask, values)` (R71): one event for the whole group. -/
def setPins (v : BusValue) : List Event := [.dataWrite v]

/-- `Delay(n)` (R9). -/
def delayMs (n : Nat) : List Event := [.delay n]

/-- `pulse(WR)` (R72): idle, then active; WR is left at active. -/
def pulseWr : List Event := setPin (.wr .idle) ++ setPin (.wr .active)

/-- `Frame(rs, n, v)` (R73): register-select, data lines, strobe. -/
def frame (rs : RsLevel) (v : BusValue) : List Event := setPin (.rs rs) ++ setPins v ++ pulseWr

/-- `writeCommand(byte)` (R74). -/
def writeCommand (b : Byte) : List Event := frame .cmd (.bits8 b)

/-- `writeData8(byte)` (R75). -/
def writeData8 (b : Byte) : List Event := frame .data (.bits8 b)

/-- `writeData16(word)` (R76). -/
def writeData16 (w : Word) : List Event := frame .data (.bits16 w)

/-- `repeat n times: writeData16(color)` (44_pixel_fastlines.md R106, R107, 45_fill.md R115). -/
def streamColor (n : Nat) (color : Word) : List Event := (List.replicate n (writeData16 color)).flatten

/-- Running an operation that is accepted in either mode: INIT and COLOR565 (60_exceptions.md R156). -/
def State.inAnyMode (s : State) (script : List Action) : Host.Outcome State Fault Refusal :=
  .next (s.perform script)

/-- Running an operation that is accepted only in `READY` (R156); the mode test comes before every other check
(R153). -/
def State.whenReady (s : State) (script : List Action) : Host.Outcome State Fault Refusal :=
  match s.mode with
  | .ready => .next (s.perform script)
  | .uninit => .refused .notReady

end Sys2Proof.Machine
end

