-- ==== Sys2Proof/Machine/Color.lean ====
section
/-! DEFINITION. Colour-format conversion, COLOR565 (47_color.md R135, R136). -/

namespace Sys2Proof.Machine

/-- `((r & 0xF8) << 8) | ((g & 0xFC) << 3) | (b >> 3)` on 16-bit values, verbatim (R135). -/
def color565 (r g b : Byte) : Word :=
  ((r.setWidth 16 &&& 0xF8) <<< 8) ||| ((g.setWidth 16 &&& 0xFC) <<< 3) ||| (b.setWidth 16 >>> 3)

/-- COLOR565's expansion (R135): no event. -/
def scriptColor565 (r g b : Byte) (_s : State) : List Action := [.result (color565 r g b)]

/-- COLOR565 (R135), accepted in either mode. -/
def execColor565 (r g b : Byte) (s : State) : Host.Outcome State Fault Refusal := s.inAnyMode (scriptColor565 r g b s)

end Sys2Proof.Machine
end

