-- ==== Sys2Proof/Machine/Window.lean ====
section
/-! DEFINITION. The addressing-window sequencer, SETWIN (42_addr_window.md R90 to R92, 30_encoding.md R57). -/

namespace Sys2Proof.Machine

/-- column-address-set (30_encoding.md R58) -/
def cmdColumnAddressSet : Byte := 0x2A

/-- row-address-set (R58) -/
def cmdRowAddressSet : Byte := 0x2B

/-- memory-write (R58) -/
def cmdMemoryWrite : Byte := 0x2C

/-- `setAddrWindow(x0, y0, x1, y1)` (R90): eleven framed writes; no clipping, only encoding, each coordinate most
significant byte first (20_memory.md R34). -/
def setAddrWindow (x0 y0 x1 y1 : Word) : List Event :=
  writeCommand cmdColumnAddressSet
    ++ writeData8 (hi8 x0) ++ writeData8 (lo8 x0)
    ++ writeData8 (hi8 x1) ++ writeData8 (lo8 x1)
    ++ writeCommand cmdRowAddressSet
    ++ writeData8 (hi8 y0) ++ writeData8 (lo8 y0)
    ++ writeData8 (hi8 y1) ++ writeData8 (lo8 y1)
    ++ writeCommand cmdMemoryWrite

/-- SETWIN's expansion (R90). -/
def scriptSetwin (x0 y0 x1 y1 : Word) (_s : State) : List Action := emits (setAddrWindow x0 y0 x1 y1)

/-- SETWIN (R90): the operands are encoded as given (R91). -/
def execSetwin (x0 y0 x1 y1 : Word) (s : State) : Host.Outcome State Fault Refusal :=
  s.whenReady (scriptSetwin x0 y0 x1 y1 s)

end Sys2Proof.Machine
end

