-- ==== Sys2Proof/Machine/Pixel.lean ====
section
/-! DEFINITION. PIXEL, VLINE, HLINE (44_pixel_fastlines.md R105 to R109). `W` and `H` are the logical WIDTH and
HEIGHT; coordinates and lengths are exact integers. -/

namespace Sys2Proof.Machine

/-- The point lies outside `[0, WIDTH) × [0, HEIGHT)`: either coordinate out of range (R105, R109). -/
abbrev OutsideFrame (W H x y : Int) : Prop := x < 0 ∨ x ≥ W ∨ y < 0 ∨ y ≥ H

/-- A length clipped so that `start + length` does not pass `bound` (R106, R107, 45_fill.md R115). -/
def clipLength (start length bound : Int) : Int :=
  if start + length > bound then bound - start else length

/-- `drawPixel(x, y, color)` (R105). -/
def drawPixel (W H x y : Int) (color : Word) : List Event :=
  if OutsideFrame W H x y then []
  else setAddrWindow (coordWord x) (coordWord y) (coordWord x) (coordWord y) ++ writeData16 color

/-- `drawFastVLine(x, y, h, color)` (R106). -/
def drawFastVLine (W H x y h : Int) (color : Word) : List Event :=
  if OutsideFrame W H x y ∨ h < 1 then []
  else
    let h := clipLength y h H
    if h = 1 then drawPixel W H x y color
    else setAddrWindow (coordWord x) (coordWord y) (coordWord x) (coordWord (y + h - 1))
      ++ streamColor h.toNat color

/-- `drawFastHLine(x, y, w, color)` (R107). -/
def drawFastHLine (W H x y w : Int) (color : Word) : List Event :=
  if OutsideFrame W H x y ∨ w < 1 then []
  else
    let w := clipLength x w W
    if w = 1 then drawPixel W H x y color
    else setAddrWindow (coordWord x) (coordWord y) (coordWord (x + w - 1)) (coordWord y)
      ++ streamColor w.toNat color

/-- PIXEL's expansion (R105). -/
def scriptPixel (x y : Int) (color : Word) (s : State) : List Action :=
  emits (drawPixel s.width s.height x y color)

/-- PIXEL (R105). -/
def execPixel (x y : Int) (color : Word) (s : State) : Host.Outcome State Fault Refusal :=
  s.whenReady (scriptPixel x y color s)

/-- VLINE's expansion (R106). -/
def scriptVline (x y h : Int) (color : Word) (s : State) : List Action :=
  emits (drawFastVLine s.width s.height x y h color)

/-- VLINE (R106). -/
def execVline (x y h : Int) (color : Word) (s : State) : Host.Outcome State Fault Refusal :=
  s.whenReady (scriptVline x y h color s)

/-- HLINE's expansion (R107). -/
def scriptHline (x y w : Int) (color : Word) (s : State) : List Action :=
  emits (drawFastHLine s.width s.height x y w color)

/-- HLINE (R107). -/
def execHline (x y w : Int) (color : Word) (s : State) : Host.Outcome State Fault Refusal :=
  s.whenReady (scriptHline x y w color s)

end Sys2Proof.Machine
end

