-- ==== Sys2Proof/Machine/Fill.lean ====
section
/-! DEFINITION. The rectangular fill engine, FILLRECT and FILLSCR (45_fill.md R115 to R118). -/

namespace Sys2Proof.Machine

/-- `fillRect(x, y, w, h, color)` (R115): the height is clipped against HEIGHT (90_conflicts.md C2); a rectangle
with one clipped side of length 1 draws the pixel `(x, y)` only, literally as the spec has it (90_conflicts.md C5,
log entry 8). -/
def fillRect (W H x y w h : Int) (color : Word) : List Event :=
  if OutsideFrame W H x y ∨ w < 1 ∨ h < 1 then []
  else
    let w := clipLength x w W
    let h := clipLength y h H
    if w = 1 ∨ h = 1 then drawPixel W H x y color
    else setAddrWindow (coordWord x) (coordWord y) (coordWord (x + w - 1)) (coordWord (y + h - 1))
      ++ streamColor (w * h).toNat color

/-- `fillScreen(color)` (R116). -/
def fillScreen (W H : Int) (color : Word) : List Event := fillRect W H 0 0 W H color

/-- FILLRECT's expansion (R115). -/
def scriptFillrect (x y w h : Int) (color : Word) (s : State) : List Action :=
  emits (fillRect s.width s.height x y w h color)

/-- FILLRECT (R115). -/
def execFillrect (x y w h : Int) (color : Word) (s : State) : Host.Outcome State Fault Refusal :=
  s.whenReady (scriptFillrect x y w h color s)

/-- FILLSCR's expansion (R116). -/
def scriptFillscr (color : Word) (s : State) : List Action := emits (fillScreen s.width s.height color)

/-- FILLSCR (R116). -/
def execFillscr (color : Word) (s : State) : Host.Outcome State Fault Refusal :=
  s.whenReady (scriptFillscr color s)

end Sys2Proof.Machine
end

