-- ==== Sys2Proof/Machine/Framer.lean ====
section
/-! DEFINITION. WRCMD, WRDAT8, WRDAT16 (40_bus_protocol.md R74 to R76). -/

namespace Sys2Proof.Machine

/-- WRCMD's expansion (R74). -/
def scriptWrcmd (byte : Byte) (_s : State) : List Action := emits (writeCommand byte)

/-- WRCMD (R74). -/
def execWrcmd (byte : Byte) (s : State) : Host.Outcome State Fault Refusal := s.whenReady (scriptWrcmd byte s)

/-- WRDAT8's expansion (R75). -/
def scriptWrdat8 (byte : Byte) (_s : State) : List Action := emits (writeData8 byte)

/-- WRDAT8 (R75). -/
def execWrdat8 (byte : Byte) (s : State) : Host.Outcome State Fault Refusal := s.whenReady (scriptWrdat8 byte s)

/-- WRDAT16's expansion (R76). -/
def scriptWrdat16 (word : Word) (_s : State) : List Action := emits (writeData16 word)

/-- WRDAT16 (R76). -/
def execWrdat16 (word : Word) (s : State) : Host.Outcome State Fault Refusal := s.whenReady (scriptWrdat16 word s)

end Sys2Proof.Machine
end

