-- ==== Sys2Proof/Machine/Orientation.lean ====
section
/-! DEFINITION. The orientation transform and display inversion, SETROT and INVERT (43_orientation.md R95 to R98). -/

namespace Sys2Proof.Machine

/-- memory-access-control (30_encoding.md R58) -/
def cmdMemoryAccessControl : Byte := 0x36

/-- inversion off (R58) -/
def cmdInversionOff : Byte := 0x20

/-- inversion on (R58) -/
def cmdInversionOn : Byte := 0x21

/-- `P_MADCTL[q]` (R97): the block sends the byte and never looks into it. -/
def madctl (p : Params) (q : Fin 4) : Byte :=
  match q.val with
  | 0 => p.madctl0
  | 1 => p.madctl1
  | 2 => p.madctl2
  | _ => p.madctl3

/-- `dims(q)` (10_state.md R16): physical for rotations 0 and 2, swapped for 1 and 3. -/
def dims (p : Params) (q : Fin 4) : Nat × Nat :=
  if q.val = 0 ∨ q.val = 2 then (p.physW, p.physH) else (p.physH, p.physW)

/-- `setRotation(r)` (R95), a procedure of SETROT and of INIT. -/
def setRotation (p : Params) (r : Byte) : List Action :=
  let q := mod4 r
  emits (writeCommand cmdMemoryAccessControl ++ writeData8 (madctl p q))
    ++ [.geometry q (dims p q).1 (dims p q).2]

/-- SETROT's expansion (R95). -/
def scriptSetrot (r : Byte) (_s : State) : List Action := setRotation Config.params r

/-- SETROT (R95). -/
def execSetrot (r : Byte) (s : State) : Host.Outcome State Fault Refusal := s.whenReady (scriptSetrot r s)

/-- `invertDisplay(on)` (R98). -/
def invertDisplay (on : Bool) : List Event :=
  if on then writeCommand cmdInversionOn else writeCommand cmdInversionOff

/-- INVERT's expansion (R98). -/
def scriptInvert (on : Bool) (_s : State) : List Action := emits (invertDisplay on)

/-- INVERT (R98). -/
def execInvert (on : Bool) (s : State) : Host.Outcome State Fault Refusal := s.whenReady (scriptInvert on s)

end Sys2Proof.Machine
end

