-- ==== Sys2Proof/Machine/Lifecycle.lean ====
section
/-! DEFINITION. The controller initialization sequence, INIT (41_init_sequence.md R80 to R83). -/

namespace Sys2Proof.Machine

/-- pixel format (30_encoding.md R58) -/
def cmdPixelFormat : Byte := 0x3A

/-- brightness (R58) -/
def cmdBrightness : Byte := 0x51

/-- sleep out (R58) -/
def cmdSleepOut : Byte := 0x11

/-- display on (R58) -/
def cmdDisplayOn : Byte := 0x29

/-- `init()` (R80): 42 events, with the reset pulse and its hold times as R81 pairs them, then `MODE <- READY`. -/
def initSequence (p : Params) : List Action :=
  emits (setPin (.cs .active)
      ++ setPin (.rs .data)
      ++ setPin (.rd .idle)
      ++ setPin (.wr .idle)
      ++ setPin (.rst .inactive)
      ++ delayMs 5
      ++ setPin (.rst .active)
      ++ delayMs 20
      ++ setPin (.rst .inactive)
      ++ delayMs 150
      ++ writeCommand cmdPixelFormat
      ++ writeData8 p.pixfmt16)
    ++ setRotation p (BitVec.ofNat 8 p.rotInit.val)
    ++ emits (writeCommand cmdBrightness
      ++ writeData8 p.bright
      ++ writeCommand cmdSleepOut
      ++ writeCommand cmdDisplayOn)
    ++ [.ready]

/-- INIT's expansion (R80). -/
def scriptInit (_s : State) : List Action := initSequence Config.params

/-- INIT (R80), accepted in either mode and run in full each time (R82). -/
def execInit (s : State) : Host.Outcome State Fault Refusal := s.inAnyMode (scriptInit s)

end Sys2Proof.Machine
end

