-- ==== Sys2Proof/Machine/Line.lean ====
section
/-! DEFINITION. The Bresenham line rasterizer, LINE (46_line.md R120 to R128). It never touches the bus itself: it
makes a list of calls of the fast-line and pixel primitives, each of which opens its own window. -/

namespace Sys2Proof.Machine

/-- A call LINE makes (R120, 60_exceptions.md R158). -/
inductive DrawCall
  /-- `drawFastHLine(x, y, n, color)` -/
  | hline (x y n : Int)
  /-- `drawFastVLine(x, y, n, color)` -/
  | vline (x y n : Int)
  /-- `drawPixel(x, y, color)` -/
  | pixel (x y : Int)
deriving DecidableEq, Repr

/-- What a call puts on the pins. -/
def drawCallEvents (W H : Int) (color : Word) : DrawCall → List Event
  | .hline x y n => drawFastHLine W H x y n color
  | .vline x y n => drawFastVLine W H x y n color
  | .pixel x y => drawPixel W H x y color

/-- The set-up of a general line after S4 (R124): `x` runs along the major axis. -/
structure LineSetup where
  steep : Bool
  x0 : Int
  y0 : Int
  x1 : Int
  dx : Int
  dy : Int
  ystep : Int
deriving DecidableEq, Repr

/-- The working values of the loop (10_state.md R22). -/
structure LineVars where
  err : Int
  xb : Int
  y : Int
deriving DecidableEq, Repr

/-- S1 (R121): both endpoints off one side. -/
abbrev LineRejected (W H x0 y0 x1 y1 : Int) : Prop :=
  (x0 < 0 ∧ x1 < 0) ∨ (y0 < 0 ∧ y1 < 0) ∨ (x0 ≥ W ∧ x1 ≥ W) ∨ (y0 ≥ H ∧ y1 ≥ H)

/-- S2 (R122): a negative coordinate is replaced by 0. -/
def clampNeg (v : Int) : Int := if v < 0 then 0 else v

/-- S4 after the steep exchange: start at the smaller `x` (R124). -/
def orderedSetup (steep : Bool) (x0 y0 x1 y1 : Int) : LineSetup :=
  if x0 > x1 then
    { steep := steep, x0 := x1, y0 := y1, x1 := x0, dx := x0 - x1, dy := absVal (y0 - y1), ystep := signVal (y0 - y1) }
  else
    { steep := steep, x0 := x0, y0 := y0, x1 := x1, dx := x1 - x0, dy := absVal (y1 - y0), ystep := signVal (y1 - y0) }

/-- S4 (R124): steep when `|Δy| > |Δx|`, and then the roles of x and y are exchanged. -/
def lineSetup (x0 y0 x1 y1 : Int) : LineSetup :=
  if absVal (y1 - y0) > absVal (x1 - x0) then orderedSetup true y0 x0 y1 x1
  else orderedSetup false x0 y0 x1 y1

/-- `run(a, b, n)` of R120: a fast line of `n` pixels from major position `a` at minor position `b`. -/
def runCall (g : LineSetup) (a b n : Int) : DrawCall := if g.steep then .vline b a n else .hline a b n

/-- `dot(a, b)` of R120. -/
def dotCall (g : LineSetup) (a b : Int) : DrawCall := if g.steep then .pixel b a else .pixel a b

/-- One iteration of S5 at position `x` (R125): the calls it makes and the values after it. -/
def lineStep (g : LineSetup) (x : Int) (v : LineVars) : List DrawCall × LineVars :=
  if v.err - g.dy < 0 then
    ([if x - v.xb ≠ 0 then runCall g v.xb v.y (x - v.xb + 1) else dotCall g x v.y],
      { err := v.err - g.dy + g.dx, xb := x + 1, y := v.y + g.ystep })
  else ([], { v with err := v.err - g.dy })

/-- `n` iterations of S5 from position `x` (R125). -/
def lineLoop (g : LineSetup) : Nat → Int → LineVars → List DrawCall × LineVars
  | 0, _, v => ([], v)
  | n + 1, x, v =>
    ((lineStep g x v).1 ++ (lineLoop g n (x + 1) (lineStep g x v).2).1, (lineLoop g n (x + 1) (lineStep g x v).2).2)

/-- S6 (R126): the positions not yet emitted, if any, as one fast line. -/
def lineFlush (g : LineSetup) (v : LineVars) : List DrawCall :=
  if g.x1 + 1 - v.xb ≥ 1 then [runCall g v.xb v.y (g.x1 + 1 - v.xb)] else []

/-- The values before the loop: `err = dx div 2`, `xb = x0`, `y = y0` (R124). -/
def lineStart (g : LineSetup) : LineVars := { err := g.dx / 2, xb := g.x0, y := g.y0 }

/-- S5 and S6 of a general line: `dx + 1` iterations, both ends included, then the flush. -/
def lineGeneral (g : LineSetup) : List DrawCall :=
  (lineLoop g (g.dx + 1).toNat g.x0 (lineStart g)).1
    ++ lineFlush g (lineLoop g (g.dx + 1).toNat g.x0 (lineStart g)).2

/-- S3 to S6 on clamped endpoints (R123): `y0 = y1` first, then `x0 = x1`, then the general case. -/
def lineClamped (x0 y0 x1 y1 : Int) : List DrawCall :=
  if y0 = y1 then [.hline (min x0 x1) y0 (absVal (x1 - x0) + 1)]
  else if x0 = x1 then [.vline x0 (min y0 y1) (absVal (y1 - y0) + 1)]
  else lineGeneral (lineSetup x0 y0 x1 y1)

/-- The calls of `drawLine(x0, y0, x1, y1, color)`, in order (R120). -/
def lineCalls (W H x0 y0 x1 y1 : Int) : List DrawCall :=
  if LineRejected W H x0 y0 x1 y1 then []
  else lineClamped (clampNeg x0) (clampNeg y0) (clampNeg x1) (clampNeg y1)

/-- `drawLine(x0, y0, x1, y1, color)` (R120). -/
def drawLine (W H x0 y0 x1 y1 : Int) (color : Word) : List Event :=
  (lineCalls W H x0 y0 x1 y1).flatMap (drawCallEvents W H color)

/-- LINE's expansion (R120). -/
def scriptLine (x0 y0 x1 y1 : Int) (color : Word) (s : State) : List Action :=
  emits (drawLine s.width s.height x0 y0 x1 y1 color)

/-- LINE (R120). -/
def execLine (x0 y0 x1 y1 : Int) (color : Word) (s : State) : Host.Outcome State Fault Refusal :=
  s.whenReady (scriptLine x0 y0 x1 y1 color s)

end Sys2Proof.Machine
end

