-- ==== Sys2Proof/Machine/Dispatch.lean ====
section
/-! DEFINITION. One arm per operation: the accepted operation's whole effect, first event to last (10_state.md R11, R23). -/

namespace Sys2Proof.Machine

def exec (i : Instr) (s : State) : Host.Outcome State Fault Refusal :=
  match i with
  | .init => Sys2Proof.Machine.execInit s
  | .wrcmd byte => Sys2Proof.Machine.execWrcmd byte s
  | .wrdat8 byte => Sys2Proof.Machine.execWrdat8 byte s
  | .wrdat16 word => Sys2Proof.Machine.execWrdat16 word s
  | .setwin x0 y0 x1 y1 => Sys2Proof.Machine.execSetwin x0 y0 x1 y1 s
  | .setrot r => Sys2Proof.Machine.execSetrot r s
  | .invert on => Sys2Proof.Machine.execInvert on s
  | .pixel x y color => Sys2Proof.Machine.execPixel x y color s
  | .vline x y h color => Sys2Proof.Machine.execVline x y h color s
  | .hline x y w color => Sys2Proof.Machine.execHline x y w color s
  | .fillrect x y w h color => Sys2Proof.Machine.execFillrect x y w h color s
  | .fillscr color => Sys2Proof.Machine.execFillscr color s
  | .line x0 y0 x1 y1 color => Sys2Proof.Machine.execLine x0 y0 x1 y1 color s
  | .color565 r g b => Sys2Proof.Machine.execColor565 r g b s

end Sys2Proof.Machine
end

