-- ==== Sys2Proof/WellFormed.lean ====
section
/-! DEFINITION. Which instruction terms a descriptor can carry: the operand ranges of 30_encoding.md R54. -/

namespace Sys2Proof

/-- `int16` (R8): −32768..32767. -/
abbrev InInt16 (v : Int) : Prop := -32768 ≤ v ∧ v ≤ 32767

/-- Every `int16` operand lies in its range. The other operands cannot leave theirs: their types hold exactly
the values R54 allows. -/
abbrev Instr.WellFormed : Instr → Prop
  | .init => True
  | .wrcmd _ => True
  | .wrdat8 _ => True
  | .wrdat16 _ => True
  | .setwin _ _ _ _ => True
  | .setrot _ => True
  | .invert _ => True
  | .pixel x y _ => InInt16 x ∧ InInt16 y
  | .vline x y h _ => InInt16 x ∧ InInt16 y ∧ InInt16 h
  | .hline x y w _ => InInt16 x ∧ InInt16 y ∧ InInt16 w
  | .fillrect x y w h _ => InInt16 x ∧ InInt16 y ∧ InInt16 w ∧ InInt16 h
  | .fillscr _ => True
  | .line x0 y0 x1 y1 _ => InInt16 x0 ∧ InInt16 y0 ∧ InInt16 x1 ∧ InInt16 y1
  | .color565 _ _ _ => True

end Sys2Proof
end

