-- ==== Sys2Proof/Decode.lean ====
section
/-! DEFINITION. The descriptor format (30_encoding.md R50 to R55): splitting a descriptor into fields, operand
assembly, the decoder, and the encoder written from the same table. -/

namespace Sys2Proof

/-- Why a descriptor is no operation. -/
inductive DecodeError
  /-- `OPC` is 0x00 or 0x0F to 0xFF (R55). -/
  | reservedOpcode (opc : Byte)
  /-- A byte string that is not the 11 bytes of one descriptor (R50). -/
  | wrongLength (bytes : Nat)
deriving DecidableEq, Repr

/-- The fields of a descriptor at the bit positions of R50. -/
def splitDescriptor (d : Descriptor) : Fields where
  opc := d.extractLsb' 80 8
  f0 := d.extractLsb' 64 16
  f1 := d.extractLsb' 48 16
  f2 := d.extractLsb' 32 16
  f3 := d.extractLsb' 16 16
  f4 := d.extractLsb' 0 16

/-- The descriptor with these fields: `OPC F0 F1 F2 F3 F4`, most significant first (R50). -/
def joinDescriptor (f : Fields) : Descriptor :=
  f.opc ++ f.f0 ++ f.f1 ++ f.f2 ++ f.f3 ++ f.f4

/-- `sext_16(field)` (R8, R54): the field as an `int16`. -/
def sext16 (v : Word) : Int := v.toInt

/-- `field[7:0]` (R54). -/
def fieldByte (v : Word) : Byte := v.extractLsb' 0 8

/-- `field[0]`: 1 is true, 0 is false (R54, INVERT). -/
def fieldBit0 (v : Word) : Bool := v.getLsbD 0

/-- The operation the fields carry: `OPC` alone selects it (R51, R52), the operands are read as R54 says, bits
R52 assigns to no operand are ignored (R53), a reserved opcode is rejected by name (R55). -/
def decodeFields (f : Fields) : Except DecodeError Instr :=
  match f.opc.toNat with
  | 0x01 => .ok .init
  | 0x02 => .ok (.wrcmd (fieldByte f.f0))
  | 0x03 => .ok (.wrdat8 (fieldByte f.f0))
  | 0x04 => .ok (.wrdat16 f.f0)
  | 0x05 => .ok (.setwin f.f0 f.f1 f.f2 f.f3)
  | 0x06 => .ok (.setrot (fieldByte f.f0))
  | 0x07 => .ok (.invert (fieldBit0 f.f0))
  | 0x08 => .ok (.pixel (sext16 f.f0) (sext16 f.f1) f.f4)
  | 0x09 => .ok (.vline (sext16 f.f0) (sext16 f.f1) (sext16 f.f2) f.f4)
  | 0x0A => .ok (.hline (sext16 f.f0) (sext16 f.f1) (sext16 f.f2) f.f4)
  | 0x0B => .ok (.fillrect (sext16 f.f0) (sext16 f.f1) (sext16 f.f2) (sext16 f.f3) f.f4)
  | 0x0C => .ok (.fillscr f.f4)
  | 0x0D => .ok (.line (sext16 f.f0) (sext16 f.f1) (sext16 f.f2) (sext16 f.f3) f.f4)
  | 0x0E => .ok (.color565 (fieldByte f.f0) (fieldByte f.f1) (fieldByte f.f2))
  | _ => .error (.reservedOpcode f.opc)

/-- Decoding a descriptor. -/
def decode (d : Descriptor) : Except DecodeError Instr := decodeFields (splitDescriptor d)

/-- A byte string as one number, the most significant byte first (20_memory.md R34). -/
def bytesToNat (bs : List Byte) : Nat := bs.foldl (fun n b => n * 256 + b.toNat) 0

/-- Decoding a descriptor written as bytes, most significant byte first (R34); total on any byte string. -/
def decodeBytes (bs : List Byte) : Except DecodeError Instr :=
  if bs.length = 11 then decode (BitVec.ofNat 88 (bytesToNat bs)) else .error (.wrongLength bs.length)

/-- The decoder on the numbering of spec/opcode_table.json: bit 0 of `w` is bit 0 of the descriptor, and every
bit from `nbits` up is 0. -/
def decodeTableWord (nbits w : Nat) : Option Instr :=
  (decode (BitVec.ofNat 88 (w % 2 ^ nbits))).toOption

/-- The opcode of an operation (R52). -/
def Instr.opcode : Instr → Byte
  | .init => 0x01
  | .wrcmd _ => 0x02
  | .wrdat8 _ => 0x03
  | .wrdat16 _ => 0x04
  | .setwin _ _ _ _ => 0x05
  | .setrot _ => 0x06
  | .invert _ => 0x07
  | .pixel _ _ _ => 0x08
  | .vline _ _ _ _ => 0x09
  | .hline _ _ _ _ => 0x0A
  | .fillrect _ _ _ _ _ => 0x0B
  | .fillscr _ => 0x0C
  | .line _ _ _ _ _ => 0x0D
  | .color565 _ _ _ => 0x0E

/-- An `int16` operand as its field. -/
def fieldOfInt (v : Int) : Word := BitVec.ofInt 16 v

/-- A byte operand as its field, the ignored upper byte zero (R53). -/
def fieldOfByte (b : Byte) : Word := b.setWidth 16

/-- The fields of an operation's descriptor (R52, R54); the examples' form, unused bits zero (R53). -/
def Instr.fields (i : Instr) : Fields :=
  match i with
  | .init => ⟨i.opcode, 0, 0, 0, 0, 0⟩
  | .wrcmd b => ⟨i.opcode, fieldOfByte b, 0, 0, 0, 0⟩
  | .wrdat8 b => ⟨i.opcode, fieldOfByte b, 0, 0, 0, 0⟩
  | .wrdat16 w => ⟨i.opcode, w, 0, 0, 0, 0⟩
  | .setwin x0 y0 x1 y1 => ⟨i.opcode, x0, y0, x1, y1, 0⟩
  | .setrot r => ⟨i.opcode, fieldOfByte r, 0, 0, 0, 0⟩
  | .invert on => ⟨i.opcode, if on then 1 else 0, 0, 0, 0, 0⟩
  | .pixel x y c => ⟨i.opcode, fieldOfInt x, fieldOfInt y, 0, 0, c⟩
  | .vline x y h c => ⟨i.opcode, fieldOfInt x, fieldOfInt y, fieldOfInt h, 0, c⟩
  | .hline x y w c => ⟨i.opcode, fieldOfInt x, fieldOfInt y, fieldOfInt w, 0, c⟩
  | .fillrect x y w h c => ⟨i.opcode, fieldOfInt x, fieldOfInt y, fieldOfInt w, fieldOfInt h, c⟩
  | .fillscr c => ⟨i.opcode, 0, 0, 0, 0, c⟩
  | .line x0 y0 x1 y1 c => ⟨i.opcode, fieldOfInt x0, fieldOfInt y0, fieldOfInt x1, fieldOfInt y1, c⟩
  | .color565 r g b => ⟨i.opcode, fieldOfByte r, fieldOfByte g, fieldOfByte b, 0, 0⟩

/-- The descriptor of an operation. -/
def encode (i : Instr) : Descriptor := joinDescriptor i.fields

end Sys2Proof
end

