-- ==== Sys2Proof/Machine/Port.lean ====
section
/-! DEFINITION. The host port (10_state.md R23, R26): sampling it, acceptance, completion, hardware reset. -/

namespace Sys2Proof.Machine

/-- Acceptance: the descriptor is copied into the latch once and `BUSY <- 1` (R23). -/
def State.accept (s : State) (d : Descriptor) : State := { s with latch := splitDescriptor d, busy := true }

/-- Completion: `BUSY <- 0`, nothing left of the operation (R23). -/
def State.complete (s : State) : State := { s with busy := false, todo := [] }

/-- The running operation carried from the position it has reached to its end. -/
def State.finish (s : State) : State := (s.perform s.todo).complete

/-- Hardware reset (R25, R26; 70_reset_and_hazards.md R170 (a)): every piece of state at its reset value; the trace
gets no event and keeps what was performed, and the host's later inputs are still to come. -/
def State.hardwareReset (s : State) : State := { State.reset with trace := s.trace, inputs := s.inputs }

/-- What the port gives a step to do. -/
inductive Poll
  /-- nothing to run: the state afterwards -/
  | settled (s : State)
  /-- a descriptor has just been accepted, into the latch of this state -/
  | accepted (s : State)
deriving DecidableEq, Repr

/-- Sampling the port. A hardware reset is obeyed at any time and abandons a running operation (R26). Otherwise, while
`BUSY = 1` the port is ignored and the running operation goes on to its end; while `BUSY = 0` the host's next input is
taken, and with no input the block holds still (R23, R25, 60_exceptions.md R163). -/
def State.poll (s : State) : Poll :=
  match s.inputs with
  | .hardwareReset :: rest => .settled { s with inputs := rest }.hardwareReset
  | [] => .settled (if s.busy then s.finish else s)
  | .idle :: rest => .settled (if s.busy then s.finish else { s with inputs := rest })
  | .present d :: rest => if s.busy then .settled s.finish else .accepted ({ s with inputs := rest }.accept d)

/-- An accepted operation's outcome with completion added. -/
def completing : Host.Outcome State Fault Refusal → Host.Outcome State Fault Refusal
  | .next s => .next s.complete
  | .fault r => .fault r
  | .refused r => .refused r

end Sys2Proof.Machine
end

