-- ==== Sys2Proof/Machine/Step.lean ====
section
/-! DEFINITION. One step at the level of calls: one sample of the host port, and, where it accepts a descriptor, the
whole operation from acceptance to completion as one transition (10_state.md R11, R23). -/

namespace Sys2Proof.Machine

/-- One step. The operands come from the latch that acceptance has just loaded (R12). -/
def step (s : State) : Host.Outcome State Fault Refusal :=
  match s.poll with
  | .settled s' => .next s'
  | .accepted s' =>
    match decodeFields s'.latch with
    | .ok i => completing (exec i s')
    | .error _ => .refused (.reservedOpcode s'.latch.opc)

/-- The state in which the host presents this descriptor next: bits above `nbits` zero, `BUSY = 0` so that the very
next step accepts it. The mode is left as it is: acceptance by mode is part of the operation (60_exceptions.md R156,
log entry 10). -/
def State.withFetchWord (s : State) (nbits w : Nat) : State :=
  { s with busy := false, todo := [], inputs := .present (BitVec.ofNat 88 (w % 2 ^ nbits)) :: s.inputs }

end Sys2Proof.Machine
end

