-- ==== Sys2Proof/Machine/Wire.lean ====
section
/-! DEFINITION. What an observer of the pins records (00_scope.md R9, 20_memory.md R33, 30_encoding.md R56): latched
transactions as a function of the event trace, and the electrical levels of the lines (R6, 10_state.md R19). Nothing
here is state of the block. -/

namespace Sys2Proof.Machine

/-- A transaction on the wire (R56). -/
inductive Transaction
  /-- `C(b)`: a command -/
  | cmd (b : Byte)
  /-- `P(b)`: 8-bit data -/
  | data8 (b : Byte)
  /-- `W(w)`: 16-bit data -/
  | data16 (w : Word)
deriving DecidableEq, Repr

/-- The four events of the framed write that puts a transaction on the wire, written out (40_bus_protocol.md R73). -/
def Transaction.events : Transaction → List Event
  | .cmd b => [.pinWrite (.rs .cmd), .dataWrite (.bits8 b), .pinWrite (.wr .idle), .pinWrite (.wr .active)]
  | .data8 b => [.pinWrite (.rs .data), .dataWrite (.bits8 b), .pinWrite (.wr .idle), .pinWrite (.wr .active)]
  | .data16 w => [.pinWrite (.rs .data), .dataWrite (.bits16 w), .pinWrite (.wr .idle), .pinWrite (.wr .active)]

/-- The pins after that framed write (R74, R75, R76). -/
def Transaction.settle (t : Transaction) (p : Pins) : Pins :=
  match t with
  | .cmd b => { p with rs := .cmd, d := hi8 p.d ++ b, wr := .active }
  | .data8 b => { p with rs := .data, d := hi8 p.d ++ b, wr := .active }
  | .data16 w => { p with rs := .data, d := w, wr := .active }

/-- The pins after the framed writes of several transactions, first to last (40_bus_protocol.md R77). -/
def settleAll (p : Pins) (ts : List Transaction) : Pins := ts.foldl (fun p t => t.settle p) p

/-- What a latch event takes from the pins, given the width of the write that produced it (R9, R33). -/
def Pins.latched (p : Pins) (wide : Bool) : Transaction :=
  match p.rs, wide with
  | .cmd, _ => .cmd (lo8 p.d)
  | .data, false => .data8 (lo8 p.d)
  | .data, true => .data16 p.d

/-- Is this event a latch event on these pins: WR written to active while it is at idle (R9, R33)? -/
def isLatch (p : Pins) (e : Event) : Bool := e = .pinWrite (.wr .active) ∧ p.wr = .idle

/-- The width of the last data write after this event, `true` for 16 bits. -/
def widthAfter (wide : Bool) : Event → Bool
  | .dataWrite (.bits8 _) => false
  | .dataWrite (.bits16 _) => true
  | .pinWrite _ => wide
  | .delay _ => wide

/-- The latched-transaction trace of a list of events that starts on pins `p`; `wide` is the width of the last
data write before it (R9). -/
def latchedFrom (p : Pins) (wide : Bool) : List Event → List Transaction
  | [] => []
  | e :: es =>
    (if isLatch p e then [p.latched wide] else []) ++ latchedFrom (p.after e) (widthAfter wide e) es

/-- The electrical levels of the 21 lines. -/
structure LineLevels where
  rs : Bool
  cs : Bool
  rd : Bool
  wr : Bool
  rst : Bool
  d : Word
deriving DecidableEq, Repr

/-- A symbolic level as an electrical one, by the polarity parameters of R6. -/
def electrical (q : Params) (p : Pins) : LineLevels where
  rs := if p.rs = .cmd then q.rsCmd else !q.rsCmd
  cs := if p.cs = .active then q.csActive else !q.csActive
  rd := if p.rd = .idle then q.rdIdle else !q.rdIdle
  wr := if p.wr = .idle then q.wrIdle else !q.wrIdle
  rst := if p.rst = .active then q.rstActive else !q.rstActive
  d := p.d

end Sys2Proof.Machine
end

