-- ==== Sys2Proof/Machine/Contract.lean ====
section
/-! DEFINITION. The contract of the addressing window (20_memory.md R30, R31; 42_addr_window.md R91, R92): what a
window and the stream after it mean to the controller. The block holds none of this (10_state.md R21 (d)); the
statements about drawing operations are written with it. No controller behaviour beyond R31 is given here
(91_not_in_source.md N9). -/

namespace Sys2Proof.Machine

/-- The rectangle `(x0,y0)-(x1,y1)`, both corners included. -/
structure Window where
  x0 : Nat
  y0 : Nat
  x1 : Nat
  y1 : Nat
deriving DecidableEq, Repr

/-- The window invariant in logical bounds (R31, 90_conflicts.md C3). -/
abbrev Window.Valid (W H : Nat) (v : Window) : Prop := v.x0 ≤ v.x1 ∧ v.x1 < W ∧ v.y0 ≤ v.y1 ∧ v.y1 < H

/-- `n`, the window's width in pixels (R31). -/
def Window.columns (v : Window) : Nat := v.x1 - v.x0 + 1

/-- How many pixels the window holds (R31, R92). -/
def Window.size (v : Window) : Nat := v.columns * (v.y1 - v.y0 + 1)

/-- Where the `k`-th 16-bit data write after the memory-write command goes, counting from 0, row-major (R31). R31 gives
this for a valid window and `k < size` only. DESIGN CHOICE (log entry 16): the function is total, and a window that breaks
the precondition (R91, 93_implementation_defined.md U1) or a `k` past the end (U7), where the spec leaves any value, gets
what the same formula gives; no statement uses it there. -/
def Window.target (v : Window) (k : Nat) : Nat × Nat := (v.x0 + k % v.columns, v.y0 + k / v.columns)

/-- The eleven transactions that open a window, for `uint16` operands (30_encoding.md R57). -/
def windowTransactions (x0 y0 x1 y1 : Word) : List Transaction :=
  [.cmd 0x2A, .data8 (hi8 x0), .data8 (lo8 x0), .data8 (hi8 x1), .data8 (lo8 x1),
   .cmd 0x2B, .data8 (hi8 y0), .data8 (lo8 y0), .data8 (hi8 y1), .data8 (lo8 y1), .cmd 0x2C]

/-- A window and the colour words streamed after it. -/
structure Burst where
  window : Window
  words : List Word
deriving DecidableEq, Repr

/-- The transactions of a burst: the window sequence, then one 16-bit data write a word (R92). -/
def Burst.transactions (b : Burst) : List Transaction :=
  windowTransactions (BitVec.ofNat 16 b.window.x0) (BitVec.ofNat 16 b.window.y0)
      (BitVec.ofNat 16 b.window.x1) (BitVec.ofNat 16 b.window.y1)
    ++ b.words.map .data16

/-- A burst of `n` words of one colour into the window `(x0,y0)-(x1,y1)`; the coordinates are not negative where
it is used. -/
def colorBurst (x0 y0 x1 y1 : Int) (n : Nat) (color : Word) : Burst where
  window := ⟨x0.toNat, y0.toNat, x1.toNat, y1.toNat⟩
  words := List.replicate n color

/-- A burst within the contract: a valid window, and a stream that fills it exactly once (R31, R92). -/
abbrev Burst.Ok (W H : Nat) (b : Burst) : Prop := b.window.Valid W H ∧ b.words.length = b.window.size

/-- The pixels a burst writes and the colour each gets, in order (R31), for a burst with `Burst.Ok`. DESIGN CHOICE (log
entry 16): of any other burst, with a broken window (U1) or words past its end (U7), it says what `Window.target` says. -/
def Burst.pixels (b : Burst) : List ((Nat × Nat) × Word) :=
  b.words.zipIdx.map (fun p => (b.window.target p.2, p.1))

/-- Transactions as the events that carry them. -/
def eventsOf (ts : List Transaction) : List Event := ts.flatMap Transaction.events

end Sys2Proof.Machine
end

