-- ==== Sys2Proof/Machine/Script.lean ====
section
/-! DEFINITION. The expansion of each operation and the modes it is accepted in, for the event-level step. -/

namespace Sys2Proof.Machine

/-- The expansion an operation runs through, first line to last, from the state at acceptance (10_state.md R23). -/
def script (i : Instr) (s : State) : List Action :=
  match i with
  | .init => scriptInit s
  | .wrcmd byte => scriptWrcmd byte s
  | .wrdat8 byte => scriptWrdat8 byte s
  | .wrdat16 word => scriptWrdat16 word s
  | .setwin x0 y0 x1 y1 => scriptSetwin x0 y0 x1 y1 s
  | .setrot r => scriptSetrot r s
  | .invert on => scriptInvert on s
  | .pixel x y color => scriptPixel x y color s
  | .vline x y h color => scriptVline x y h color s
  | .hline x y w color => scriptHline x y w color s
  | .fillrect x y w h color => scriptFillrect x y w h color s
  | .fillscr color => scriptFillscr color s
  | .line x0 y0 x1 y1 color => scriptLine x0 y0 x1 y1 color s
  | .color565 r g b => scriptColor565 r g b s

/-- The acceptance table of 60_exceptions.md R156: `true` where the operation is accepted in `UNINIT` too. -/
def acceptedUninit : Instr → Bool
  | .init => true
  | .wrcmd _ => false
  | .wrdat8 _ => false
  | .wrdat16 _ => false
  | .setwin _ _ _ _ => false
  | .setrot _ => false
  | .invert _ => false
  | .pixel _ _ _ => false
  | .vline _ _ _ _ => false
  | .hline _ _ _ _ => false
  | .fillrect _ _ _ _ _ => false
  | .fillscr _ => false
  | .line _ _ _ _ _ => false
  | .color565 _ _ _ => true

/-- R156: is the operation accepted in this mode? -/
def acceptedIn (i : Instr) (m : Mode) : Bool := m = .ready ∨ acceptedUninit i = true

/-- The operation a call of LINE amounts to (60_exceptions.md R158). -/
def callInstr (color : Word) : DrawCall → Instr
  | .hline x y n => .hline x y n color
  | .vline x y n => .vline x y n color
  | .pixel x y => .pixel x y color

/-- Operations one after another, each from the state the one before it left (20_memory.md R40). -/
def execAll : List Instr → State → Host.Outcome State Fault Refusal
  | [], s => .next s
  | i :: is, s =>
    match exec i s with
    | .next t => execAll is t
    | .fault r => .fault r
    | .refused r => .refused r

end Sys2Proof.Machine
end

