-- ==== Sys2Proof/Machine/EventStep.lean ====
section
/-! DEFINITION. The block one event at a time: the "list of smaller steps in exactly the pseudocode's order" of
10_state.md R11, with `BUSY` up while an operation runs (R23), the port ignored meanwhile, and a hardware reset that
can cut an operation short (R26). `step` takes an operation in one transition; this takes its lines one by one. -/

namespace Sys2Proof.Machine

/-- The next line of the running operation, or, after the last one, its completion (R23). -/
def State.advance (s : State) : State :=
  match s.todo with
  | [] => s.complete
  | a :: rest => { s with todo := rest }.act a

/-- One event-level step on one sample of the port. -/
def eventStep (input : HostInput) (s : State) : Host.Outcome State Fault Refusal :=
  match input with
  | .hardwareReset => .next s.hardwareReset
  | .idle => .next (if s.busy then s.advance else s)
  | .present d =>
    if s.busy then .next s.advance
    else match decodeFields (s.accept d).latch with
      | .error _ => .refused (.reservedOpcode (s.accept d).latch.opc)
      | .ok i =>
        if acceptedIn i s.mode then .next { s.accept d with todo := script i (s.accept d) } else .refused .notReady

/-- `n` event-level steps with nothing on the port. -/
def eventRun : Nat → State → State
  | 0, s => s
  | n + 1, s => eventRun n (if s.busy then s.advance else s)

end Sys2Proof.Machine
end

