-- ==== Sys2Proof/Machine/Flags.lean ====
section
/-! DEFINITION. The block has no condition codes, flags or predicates (10_state.md R13), so there is no flag
computation. What the host can read instead are the status outputs of R18. -/

namespace Sys2Proof.Machine

/-- The status outputs of R18, one item each, with their widths. -/
structure Status where
  busy : BitVec 1
  mode : BitVec 1
  rot : BitVec 2
  width : Word
  height : Word
  res : Word
deriving DecidableEq, Repr

/-- `mode`: 0 = UNINIT, 1 = READY (R18). -/
def modeBit : Mode → BitVec 1
  | .uninit => 0
  | .ready => 1

/-- What the host reads at the status outputs; reading has no side effect (R18). -/
def State.status (s : State) : Status where
  busy := BitVec.ofBool s.busy
  mode := modeBit s.mode
  rot := BitVec.ofNat 2 s.rot.val
  width := BitVec.ofNat 16 s.width
  height := BitVec.ofNat 16 s.height
  res := s.res

end Sys2Proof.Machine
end

