-- ==== Sys2Proof/Machine/Raster.lean ====
section
/-! DEFINITION. The pixels of a line, written down without the set-up and the loop of LINE (46_line.md R124, R125, R128 (c)):
the statements about LINE compare its calls with these. -/

namespace Sys2Proof.Machine

/-- How many rows the error accumulator has advanced before the `k`-th position of a line `dx` long and `dy` high: the
least number `m` for which `dx div 2 − k·dy + m·dx` is not negative (R124, R125). -/
def rowsAdvanced (dx dy : Int) (k : Nat) : Int := (k * dy + dx - 1 - dx / 2) / dx

/-- The points from `(a, b)` to `(a', b')`, `a ≤ a'` and the first coordinate the major one: one a position, the second
coordinate moving from `b` towards `b'`. -/
def risingPoints (a b a' b' : Int) : List (Int × Int) :=
  (List.range (a' - a + 1).toNat).map
    (fun k : Nat => (a + (k : Int), b + (b' - b).sign * rowsAdvanced (a' - a) (b' - b).natAbs k))

/-- The line runs from its first endpoint to its second: the first has the smaller coordinate on the major axis, which is
`y` only when `|Δy| > |Δx|` (R124). -/
abbrev RunsForward (x0 y0 x1 y1 : Int) : Prop :=
  if (y1 - y0).natAbs > (x1 - x0).natAbs then y0 ≤ y1 else x0 ≤ x1

/-- The points of the line between two clamped endpoints, in drawing order. -/
def linePoints (x0 y0 x1 y1 : Int) : List (Int × Int) :=
  if (y1 - y0).natAbs > (x1 - x0).natAbs then
    (if y0 ≤ y1 then risingPoints y0 x0 y1 x1 else risingPoints y1 x1 y0 x0).map Prod.swap
  else if x0 ≤ x1 then risingPoints x0 y0 x1 y1 else risingPoints x1 y1 x0 y0

/-- The points a call covers, first to last, before the frame cuts any off. -/
def callPoints : DrawCall → List (Int × Int)
  | .hline x y n => (List.range n.toNat).map (fun k : Nat => (x + (k : Int), y))
  | .vline x y n => (List.range n.toNat).map (fun k : Nat => (x, y + (k : Int)))
  | .pixel x y => [(x, y)]

/-- The point is a pixel of the current logical frame (20_memory.md R30). -/
def inFrame (W H : Int) (p : Int × Int) : Bool := 0 ≤ p.1 ∧ p.1 < W ∧ 0 ≤ p.2 ∧ p.2 < H

end Sys2Proof.Machine
end

