-- ==== Sys2Proof/Safety.lean ====
section
/-! DEFINITION. What a sound state of the block is between operations, in the terms the statements use. -/

namespace Sys2Proof.Safety

open Sys2Proof.Machine

/-- The invariant of the block at rest between operations. -/
structure Inv (s : State) : Prop where
  /-- no operation is running (10_state.md R23) -/
  atRest : s.busy = false ∧ s.todo = []
  /-- `WIDTH` and `HEIGHT` are in 1..32767 (R10) -/
  widthRange : 1 ≤ s.width ∧ s.width ≤ 32767
  heightRange : 1 ≤ s.height ∧ s.height ≤ 32767
  /-- `(WIDTH, HEIGHT) = dims(ROT)` whenever `MODE = READY` (R16) -/
  readyDims : s.mode = .ready → (s.width, s.height) = dims Config.params s.rot
  /-- CS active, RD idle and RST inactive once INIT has run (R20, 20_memory.md R33, 70_reset_and_hazards.md R172) -/
  readyLines : s.mode = .ready → s.pins.cs = .active ∧ s.pins.rd = .idle ∧ s.pins.rst = .inactive
  /-- WR rests at active once a framed write has been made (R21 (a)) -/
  readyWr : s.mode = .ready → s.pins.wr = .active
  /-- nothing has driven a pin since reset while `MODE = UNINIT` (R25, 60_exceptions.md R156) -/
  uninitPins : s.mode = .uninit → s.pins = Pins.reset

/-- The drawing operations, which reach the controller's frame memory (20_memory.md R30). -/
def isDrawing : Instr → Bool
  | .init => false
  | .wrcmd _ => false
  | .wrdat8 _ => false
  | .wrdat16 _ => false
  | .setwin _ _ _ _ => false
  | .setrot _ => false
  | .invert _ => false
  | .pixel _ _ _ => true
  | .vline _ _ _ _ => true
  | .hline _ _ _ _ => true
  | .fillrect _ _ _ _ _ => true
  | .fillscr _ => true
  | .line _ _ _ _ _ => true
  | .color565 _ _ _ => false

end Sys2Proof.Safety
end

