-- ==== Sys2Proof/Certificates/Slice0/Obligations.lean ====
section
/-! DEFINITION. The statements for the provers, in the order of OBLIGATIONS.json. Each docstring names the rule it
formalises; where a clause rests on a decision of the spec (92_eei_decisions.md) or on a choice of the model (a log
entry) the docstring says so. -/

open Sys2Proof
open Sys2Proof.Machine
open Sys2Proof.Safety

/-! ## Reset and status -/

/-- 10_state.md R25: the values hardware reset gives. MODE is the source's; BUSY and the pin levels are the spec's
decision D26. What R25 leaves unspecified (ROT, WIDTH, HEIGHT, RES, the latch) is not stated. -/
def Obligations.ResetGivesSpecifiedValues : Prop :=
  State.reset.mode = .uninit ∧ State.reset.busy = false ∧ State.reset.todo = [] ∧
  State.reset.pins.rs = .data ∧ State.reset.pins.cs = .inactive ∧ State.reset.pins.rd = .idle ∧
  State.reset.pins.wr = .idle ∧ State.reset.pins.rst = .inactive ∧ State.reset.pins.d = 0x0000

/-- 10_state.md R25, R26, 70_reset_and_hazards.md R170 (a): a hardware reset, at rest, with an operation half done, or (event
level) at any event boundary, puts MODE, BUSY and the pins at their reset values, abandons what was left of the operation
and produces no trace event. The reset pin values are decision D26; admitting the reset in mid-operation is the model's
choice (log entry 4). -/
def Obligations.HardwareResetAtAnyMoment : Prop :=
  (∀ (s : State) (rest : List HostInput), s.inputs = .hardwareReset :: rest →
    ∃ t, step s = .next t ∧ t.mode = .uninit ∧ t.busy = false ∧ t.pins = Pins.reset ∧ t.trace = s.trace ∧
      t.todo = [] ∧ t.inputs = rest) ∧
  (∀ s : State, ∃ t, eventStep .hardwareReset s = .next t ∧ t.mode = .uninit ∧ t.busy = false ∧
    t.pins = Pins.reset ∧ t.trace = s.trace ∧ t.todo = [])

/-- 10_state.md R18 (decision D27): the status outputs show BUSY, MODE (0 = UNINIT, 1 = READY), ROT, WIDTH, HEIGHT and
RES, losing nothing for dimensions in R10's range. -/
def Obligations.StatusOutputsShowState : Prop :=
  ∀ s : State, s.width ≤ 32767 → s.height ≤ 32767 →
    (s.status.busy = 1 ↔ s.busy = true) ∧ (s.status.mode = 1 ↔ s.mode = .ready) ∧
    s.status.rot.toNat = s.rot.val ∧ s.status.width.toNat = s.width ∧ s.status.height.toNat = s.height ∧
    s.status.res = s.res

/-! ## Encoding -/

/-- 30_encoding.md R50, R52, R54: five descriptors of the spec's examples, written out, decode to their operations
(the numbering is the spec's decision D2). -/
def Obligations.WrittenDescriptorsDecode : Prop :=
  decode 0x08000A001400000000F800 = .ok (.pixel 10 20 0xF800) ∧
  decode 0x0A00000000FFFC0000FFFF = .ok (.hline 0 0 (-4) 0xFFFF) ∧
  decode 0x0B00010002000300021234 = .ok (.fillrect 1 2 3 2 0x1234) ∧
  decode 0x0700010000000000000000 = .ok (.invert true) ∧
  decode 0x0E00120034005600000000 = .ok (.color565 0x12 0x34 0x56)

/-- 30_encoding.md R50 to R54: every well-formed operation is what its descriptor decodes to, each operand at every
value its field admits. -/
def Obligations.DecodeOfEncodeIsIdentity : Prop :=
  ∀ i : Instr, i.WellFormed → decode (encode i) = .ok i

/-- 30_encoding.md R51, R54: whatever decodes is well formed (every `int16` operand in −32768..32767), and its opcode is
bits 87:80 of the descriptor. -/
def Obligations.DecodedIsWellFormed : Prop :=
  ∀ (d : Descriptor) (i : Instr), decode d = .ok i → i.WellFormed ∧ i.opcode = d.extractLsb' 80 8

/-- 30_encoding.md R53 (decision D32): bits R52 assigns to no operand do not change the operation, whole fields and
unused upper bits alike. -/
def Obligations.UnassignedBitsAreIgnored : Prop :=
  ∀ f g : Fields, f.opc = g.opc →
    (f.opc = 0x01 → decodeFields f = decodeFields g) ∧
    (f.opc = 0x02 ∨ f.opc = 0x03 ∨ f.opc = 0x06 → f.f0.extractLsb' 0 8 = g.f0.extractLsb' 0 8 →
      decodeFields f = decodeFields g) ∧
    (f.opc = 0x04 → f.f0 = g.f0 → decodeFields f = decodeFields g) ∧
    (f.opc = 0x05 → f.f0 = g.f0 → f.f1 = g.f1 → f.f2 = g.f2 → f.f3 = g.f3 → decodeFields f = decodeFields g) ∧
    (f.opc = 0x07 → f.f0.getLsbD 0 = g.f0.getLsbD 0 → decodeFields f = decodeFields g) ∧
    (f.opc = 0x08 → f.f0 = g.f0 → f.f1 = g.f1 → f.f4 = g.f4 → decodeFields f = decodeFields g) ∧
    (f.opc = 0x09 ∨ f.opc = 0x0A → f.f0 = g.f0 → f.f1 = g.f1 → f.f2 = g.f2 → f.f4 = g.f4 →
      decodeFields f = decodeFields g) ∧
    (f.opc = 0x0C → f.f4 = g.f4 → decodeFields f = decodeFields g) ∧
    (f.opc = 0x0E → f.f0.extractLsb' 0 8 = g.f0.extractLsb' 0 8 → f.f1.extractLsb' 0 8 = g.f1.extractLsb' 0 8 →
      f.f2.extractLsb' 0 8 = g.f2.extractLsb' 0 8 → decodeFields f = decodeFields g)

/-- 30_encoding.md R55 (decision D13): exactly the opcodes 0x00 and 0x0F to 0xFF are rejected, and a step to which the
host presents one is refused by that name, in either mode. -/
def Obligations.ReservedOpcodesAreRefused : Prop :=
  (∀ d : Descriptor, (d.extractLsb' 80 8 = 0 ∨ 0x0F ≤ (d.extractLsb' 80 8).toNat) ↔
    decode d = .error (.reservedOpcode (d.extractLsb' 80 8))) ∧
  (∀ (s : State) (d : Descriptor) (rest : List HostInput), s.busy = false → s.inputs = .present d :: rest →
    d.extractLsb' 80 8 = 0 ∨ 0x0F ≤ (d.extractLsb' 80 8).toNat →
    step s = .refused (.reservedOpcode (d.extractLsb' 80 8)))

/-- 20_memory.md R34 (the descriptor's bytes): eleven bytes, most significant first, are the fields `OPC F0 F1 F2 F3 F4`,
each field's upper byte before its lower. -/
def Obligations.DescriptorBytesMostSignificantFirst : Prop :=
  ∀ f : Fields,
    decodeBytes [f.opc, hi8 f.f0, lo8 f.f0, hi8 f.f1, lo8 f.f1, hi8 f.f2, lo8 f.f2, hi8 f.f3, lo8 f.f3,
      hi8 f.f4, lo8 f.f4] = decodeFields f

/-! ## The step and the host port -/

/-- 10_state.md R23, R12: when the block is not busy and the host presents a descriptor that decodes, the step is
`exec` of that operation on the state with the descriptor in the latch and BUSY up, then BUSY down. -/
def Obligations.StepRunsPresentedOperation : Prop :=
  ∀ (s : State) (d : Descriptor) (rest : List HostInput) (i : Instr),
    s.busy = false → s.inputs = .present d :: rest → decode d = .ok i →
    step s = completing (exec i { s with busy := true, latch := splitDescriptor d, inputs := rest })

/-- 60_exceptions.md R163, 10_state.md R25: with nothing presented the block holds everything it holds. -/
def Obligations.IdleBlockHoldsState : Prop :=
  (∀ s : State, s.busy = false → s.inputs = [] → step s = .next s) ∧
  (∀ (s : State) (rest : List HostInput), s.busy = false → s.inputs = .idle :: rest →
    step s = .next { s with inputs := rest })

/-- 10_state.md R23, "While `BUSY = 1` `cmd` and `cmd_valid` are ignored": as long as no hardware reset is asserted (R26), a
busy block finishes its operation the same way whatever the host shows, takes nothing from the port, and keeps its latch.
That a step finishes an operation whole is the call level of R11 (log entry 4). -/
def Obligations.BusyBlockIgnoresPort : Prop :=
  (∀ (s : State) (ins : List HostInput), s.busy = true →
    s.inputs.head? ≠ some .hardwareReset → ins.head? ≠ some .hardwareReset →
    ∃ t, step s = .next t ∧ step { s with inputs := ins } = .next { t with inputs := ins } ∧
      t.busy = false ∧ t.latch = s.latch ∧ t.inputs = s.inputs) ∧
  (∀ (s : State) (d : Descriptor), s.busy = true →
    eventStep (.present d) s = eventStep .idle s ∧
    ∃ t, eventStep .idle s = .next t ∧ t.latch = s.latch ∧ t.finish = s.finish)

/-- 60_exceptions.md R156, R165: in READY every defined operation presented to a block at rest runs to completion: the
step answers a next state, at rest again, with the descriptor in the latch, and what was performed before stays. -/
def Obligations.ReadyBlockRunsEveryOperation : Prop :=
  ∀ (s : State) (d : Descriptor) (rest : List HostInput) (i : Instr),
    s.busy = false → s.mode = .ready → s.inputs = .present d :: rest → decode d = .ok i →
    ∃ t, step s = .next t ∧ t.busy = false ∧ t.mode = .ready ∧ t.latch = splitDescriptor d ∧ t.inputs = rest ∧
      s.trace <+: t.trace

/-- 60_exceptions.md R156 (decision D13): in UNINIT every operation but INIT and COLOR565 is refused, by `exec` and by the
step that would accept it; INIT and COLOR565 run. -/
def Obligations.UninitAcceptsOnlyInitAndColor : Prop :=
  (∀ (i : Instr) (s : State), s.mode = .uninit → i ≠ .init → (∀ r g b, i ≠ .color565 r g b) →
    exec i s = .refused .notReady) ∧
  (∀ (s : State) (d : Descriptor) (rest : List HostInput) (i : Instr),
    s.busy = false → s.mode = .uninit → s.inputs = .present d :: rest → decode d = .ok i →
    (i ≠ .init → (∀ r g b, i ≠ .color565 r g b) → step s = .refused .notReady) ∧
    (i = .init → ∃ t, step s = .next t ∧ t.mode = .ready) ∧
    (∀ r g b, i = .color565 r g b → ∃ t, step s = .next t ∧ t.mode = .uninit))

/-! ## Adapter, framer, window -/

/-- 40_bus_protocol.md R72: a pulse is two events, WR idle then WR active; the second is a latch event; WR is left at
active and no other line moves. -/
def Obligations.PulseIsIdleThenActive : Prop :=
  pulseWr = [.pinWrite (.wr .idle), .pinWrite (.wr .active)] ∧
  ∀ p : Pins, p.afterAll pulseWr = { p with wr := .active } ∧
    isLatch p (.pinWrite (.wr .idle)) = false ∧ isLatch (p.after (.pinWrite (.wr .idle))) (.pinWrite (.wr .active)) = true

/-- 40_bus_protocol.md R74: in READY, WRCMD is four events, RS at cmd, the byte on D[7:0], WR idle, WR active; it leaves
D[15:8] and everything else; its transaction is `C(byte)`; its operand is F0[7:0] of a descriptor with OPC 0x02. -/
def Obligations.WrcmdSendsCommand : Prop :=
  (∀ (byte : Byte) (s : State), s.mode = .ready →
    exec (.wrcmd byte) s = .next { s with
      pins := { s.pins with rs := .cmd, d := s.pins.d.extractLsb' 8 8 ++ byte, wr := .active }
      trace := s.trace ++ [.pinWrite (.rs .cmd), .dataWrite (.bits8 byte), .pinWrite (.wr .idle), .pinWrite (.wr .active)] }) ∧
  (∀ (byte : Byte) (p : Pins) (wide : Bool),
    latchedFrom p wide [.pinWrite (.rs .cmd), .dataWrite (.bits8 byte), .pinWrite (.wr .idle), .pinWrite (.wr .active)]
      = [.cmd byte]) ∧
  (∀ f : Fields, f.opc = 0x02 → decodeFields f = .ok (.wrcmd (f.f0.extractLsb' 0 8)))

/-- 40_bus_protocol.md R75: in READY, WRDAT8 is the same with RS at data; its transaction is `P(byte)`, its opcode 0x03. -/
def Obligations.Wrdat8SendsByte : Prop :=
  (∀ (byte : Byte) (s : State), s.mode = .ready →
    exec (.wrdat8 byte) s = .next { s with
      pins := { s.pins with rs := .data, d := s.pins.d.extractLsb' 8 8 ++ byte, wr := .active }
      trace := s.trace ++ [.pinWrite (.rs .data), .dataWrite (.bits8 byte), .pinWrite (.wr .idle), .pinWrite (.wr .active)] }) ∧
  (∀ (byte : Byte) (p : Pins) (wide : Bool),
    latchedFrom p wide [.pinWrite (.rs .data), .dataWrite (.bits8 byte), .pinWrite (.wr .idle), .pinWrite (.wr .active)]
      = [.data8 byte]) ∧
  (∀ f : Fields, f.opc = 0x03 → decodeFields f = .ok (.wrdat8 (f.f0.extractLsb' 0 8)))

/-- 40_bus_protocol.md R76: in READY, WRDAT16 drives all sixteen data lines with the word, neither split nor swapped; its
transaction is `W(word)`, so two of the same value are two latch events; its operand is F0 of a descriptor with OPC
0x04. -/
def Obligations.Wrdat16SendsWord : Prop :=
  (∀ (word : Word) (s : State), s.mode = .ready →
    exec (.wrdat16 word) s = .next { s with
      pins := { s.pins with rs := .data, d := word, wr := .active }
      trace := s.trace ++ [.pinWrite (.rs .data), .dataWrite (.bits16 word), .pinWrite (.wr .idle), .pinWrite (.wr .active)] }) ∧
  (∀ (word : Word) (p : Pins) (wide : Bool),
    latchedFrom p wide [.pinWrite (.rs .data), .dataWrite (.bits16 word), .pinWrite (.wr .idle), .pinWrite (.wr .active)]
      = [.data16 word] ∧
    latchedFrom p wide
      [.pinWrite (.rs .data), .dataWrite (.bits16 word), .pinWrite (.wr .idle), .pinWrite (.wr .active),
       .pinWrite (.rs .data), .dataWrite (.bits16 word), .pinWrite (.wr .idle), .pinWrite (.wr .active)]
      = [.data16 word, .data16 word]) ∧
  (∀ f : Fields, f.opc = 0x04 → decodeFields f = .ok (.wrdat16 f.f0))

/-- 40_bus_protocol.md R73, R77, 20_memory.md R33: the three framed writes are the four events written out, and a
sequence of `k` of them, from any pin levels, is `4k` events and latches exactly its `k` transactions, in order. -/
def Obligations.FramedWritesLatchInOrder : Prop :=
  (∀ b : Byte, writeCommand b = (Transaction.cmd b).events ∧ writeData8 b = (Transaction.data8 b).events) ∧
  (∀ w : Word, writeData16 w = (Transaction.data16 w).events) ∧
  (∀ (ts : List Transaction) (p : Pins) (wide : Bool),
    (eventsOf ts).length = 4 * ts.length ∧ latchedFrom p wide (eventsOf ts) = ts)

/-- 42_addr_window.md R90, 30_encoding.md R57 (as a host operation, with operands as given: decisions D29, D30; D[15:8] held:
decision D4, log entry 7): in READY, SETWIN sends the eleven transactions in order, each operand as given, high byte first,
`x0 x1` then `y0 y1`; RS ends at cmd, D[7:0] at 0x2C. -/
def Obligations.SetwinSendsWindowSequence : Prop :=
  ∀ (x0 y0 x1 y1 : Word) (s : State), s.mode = .ready →
    exec (.setwin x0 y0 x1 y1) s = .next { s with
      pins := { s.pins with rs := .cmd, d := s.pins.d.extractLsb' 8 8 ++ (0x2C : Byte), wr := .active }
      trace := s.trace ++ eventsOf
        [.cmd 0x2A, .data8 (x0.extractLsb' 8 8), .data8 (x0.extractLsb' 0 8),
         .data8 (x1.extractLsb' 8 8), .data8 (x1.extractLsb' 0 8),
         .cmd 0x2B, .data8 (y0.extractLsb' 8 8), .data8 (y0.extractLsb' 0 8),
         .data8 (y1.extractLsb' 8 8), .data8 (y1.extractLsb' 0 8), .cmd 0x2C] }

/-- 20_memory.md R31, 42_addr_window.md R92, 45_fill.md R118: the `k`-th word after a valid window goes to a pixel inside
it, and over `0 ≤ k < size` every pixel of the window is reached by exactly one `k`. -/
def Obligations.WindowStreamReachesEachPixelOnce : Prop :=
  ∀ (v : Window) (W H : Nat), v.Valid W H →
    (∀ k, k < v.size → v.x0 ≤ (v.target k).1 ∧ (v.target k).1 ≤ v.x1 ∧ v.y0 ≤ (v.target k).2 ∧ (v.target k).2 ≤ v.y1) ∧
    (∀ x y, v.x0 ≤ x → x ≤ v.x1 → v.y0 ≤ y → y ≤ v.y1 →
      ∃ k, k < v.size ∧ v.target k = (x, y) ∧ ∀ j, j < v.size → v.target j = (x, y) → j = k)

/-- 70_reset_and_hazards.md R175, 20_memory.md R31: SETWIN on a valid window followed by one WRDAT16 a pixel sends exactly
that window's burst, from any ready state, and leaves the last word on the data lines. -/
def Obligations.HostBuiltStreamIsBurst : Prop :=
  ∀ (s : State) (b : Burst), s.mode = .ready → b.Ok s.width s.height →
    ∃ t, execAll (.setwin (BitVec.ofNat 16 b.window.x0) (BitVec.ofNat 16 b.window.y0)
        (BitVec.ofNat 16 b.window.x1) (BitVec.ofNat 16 b.window.y1) :: b.words.map .wrdat16) s = .next t ∧
      t.trace = s.trace ++ eventsOf b.transactions ∧ some t.pins.d = b.words.getLast? ∧ t.mode = .ready

/-! ## Orientation and inversion -/

/-- 43_orientation.md R95 (operand form: decision D25; the byte is the parameter P_MADCTL of decision D10): in READY,
SETROT sends `C(36) P(P_MADCTL[q])`, `q = r mod 4`, and sets ROT, WIDTH and HEIGHT. -/
def Obligations.SetrotSetsOrientation : Prop :=
  ∀ (r : Byte) (s : State), s.mode = .ready →
    ∃ t, exec (.setrot r) s = .next t ∧
      t = { s with
        rot := t.rot, width := t.width, height := t.height
        pins := { s.pins with rs := .data, d := s.pins.d.extractLsb' 8 8 ++ madctl Config.params t.rot, wr := .active }
        trace := s.trace ++ eventsOf [.cmd 0x36, .data8 (madctl Config.params t.rot)] } ∧
      t.rot.val = r.toNat % 4 ∧
      (t.rot.val = 0 → madctl Config.params t.rot = Config.params.madctl0) ∧
      (t.rot.val = 1 → madctl Config.params t.rot = Config.params.madctl1) ∧
      (t.rot.val = 2 → madctl Config.params t.rot = Config.params.madctl2) ∧
      (t.rot.val = 3 → madctl Config.params t.rot = Config.params.madctl3) ∧
      (t.rot.val = 0 ∨ t.rot.val = 2 → t.width = Config.params.physW ∧ t.height = Config.params.physH) ∧
      (t.rot.val = 1 ∨ t.rot.val = 3 → t.width = Config.params.physH ∧ t.height = Config.params.physW)

/-- 43_orientation.md R96: `setRotation(r mod 4)` is `setRotation(r)`; rotations 0 and 2 have the physical dimensions and 1
and 3 have them swapped; reading `r` from 8 bits, 16 or any wider unsigned type gives the same rotation. -/
def Obligations.RotationIsTakenMod4 : Prop :=
  (∀ (r : Byte) (s : State), exec (.setrot (BitVec.ofNat 8 (r.toNat % 4))) s = exec (.setrot r) s) ∧
  (∀ (s t0 t1 : State), exec (.setrot 0) s = .next t0 → exec (.setrot 1) s = .next t1 →
    t0.width = Config.params.physW ∧ t0.height = Config.params.physH ∧ t1.width = t0.height ∧ t1.height = t0.width) ∧
  (∀ (s t2 t3 : State), exec (.setrot 2) s = .next t2 → exec (.setrot 3) s = .next t3 →
    t2.width = Config.params.physW ∧ t2.height = Config.params.physH ∧ t3.width = t2.height ∧ t3.height = t2.width) ∧
  (∀ (n : Nat) (r : BitVec n), (r.extractLsb' 0 8).toNat % 4 = r.toNat % 4)

/-- 43_orientation.md R98: in READY, INVERT sends `C(21)` or `C(20)`, no parameter, and changes only the pins. -/
def Obligations.InvertSendsInversionCommand : Prop :=
  ∀ (on : Bool) (s : State), s.mode = .ready →
    exec (.invert on) s = .next { s with
      pins := { s.pins with rs := .cmd, d := s.pins.d.extractLsb' 8 8 ++ (if on then (0x21 : Byte) else 0x20), wr := .active }
      trace := s.trace ++ eventsOf [.cmd (if on then 0x21 else 0x20)] }

/-! ## Initialization -/

/-- 41_init_sequence.md R80, R81, R82 (decisions D7 to D10, D14): in either mode INIT performs its 42 events, the reset
pulse with 5, 20 and 150 ms among them, sets ROT, WIDTH, HEIGHT for P_ROT_INIT and makes MODE READY. -/
def Obligations.InitRunsWholeScript : Prop :=
  ∀ s : State, ∃ es : List Event, es.length = 42 ∧
    es = [.pinWrite (.cs .active), .pinWrite (.rs .data), .pinWrite (.rd .idle), .pinWrite (.wr .idle),
        .pinWrite (.rst .inactive), .delay 5, .pinWrite (.rst .active), .delay 20, .pinWrite (.rst .inactive),
        .delay 150]
      ++ eventsOf [.cmd 0x3A, .data8 Config.params.pixfmt16, .cmd 0x36, .data8 (madctl Config.params Config.params.rotInit),
        .cmd 0x51, .data8 Config.params.bright, .cmd 0x11, .cmd 0x29] ∧
    exec .init s = .next { s with
      mode := .ready
      rot := Config.params.rotInit
      width := (dims Config.params Config.params.rotInit).1
      height := (dims Config.params Config.params.rotInit).2
      pins := { rs := .cmd, cs := .active, rd := .idle, wr := .active, rst := .inactive,
                d := s.pins.d.extractLsb' 8 8 ++ (0x29 : Byte) }
      trace := s.trace ++ es }

/-- 41_init_sequence.md R80, 20_memory.md R33: whatever the pins held, an INIT latches exactly eight transactions; the WR
write of its set-up latches nothing. -/
def Obligations.InitLatchesEightTransactions : Prop :=
  ∀ (s t : State) (wide : Bool), exec .init s = .next t →
    latchedFrom s.pins wide (t.trace.drop s.trace.length) =
      [.cmd 0x3A, .data8 Config.params.pixfmt16, .cmd 0x36, .data8 (madctl Config.params Config.params.rotInit),
       .cmd 0x51, .data8 Config.params.bright, .cmd 0x11, .cmd 0x29]

/-- 70_reset_and_hazards.md R172: the state after a completed first INIT, for every value of what reset leaves
unspecified (log entry 2 does not enter). -/
def Obligations.CleanEntryAfterFirstInit : Prop :=
  ∀ (q : Fin 4) (w h : Nat) (v : Word) (l : Fields) (d : Descriptor) (rest : List HostInput),
    decode d = .ok .init →
    ∃ t, step { State.reset with
        rot := q, width := w, height := h, res := v, latch := l, inputs := .present d :: rest } = .next t ∧
      t.mode = .ready ∧ t.busy = false ∧ t.rot = Config.params.rotInit ∧
      (t.width, t.height) = dims Config.params Config.params.rotInit ∧ t.res = v ∧
      t.pins = { rs := .cmd, cs := .active, rd := .idle, wr := .active, rst := .inactive, d := 0x0029 }

/-- 41_init_sequence.md R83: run event by event, INIT changes MODE only with its very last action: after `k < 44` of its
44 lines (42 events and the two state writes) MODE is what it was and BUSY is up; after the 44th it is READY; one step
more and BUSY is down. -/
def Obligations.InitBecomesReadyLast : Prop :=
  ∀ (s : State) (d : Descriptor) (t : State), s.busy = false → decode d = .ok .init →
    eventStep (.present d) s = .next t →
    (∀ k, k < 44 → (eventRun k t).mode = s.mode ∧ (eventRun k t).busy = true) ∧
    (eventRun 44 t).mode = .ready ∧ (eventRun 44 t).busy = true ∧ (eventRun 45 t).busy = false

/-! ## Pixel, fast lines, fills -/

/-- 44_pixel_fastlines.md R105: in READY, PIXEL inside the logical frame sends a 1×1 window and one word, 48 events; outside
it does nothing at all; its operands are F0 and F1 sign-extended and F4, F2 and F3 ignored. -/
def Obligations.PixelDrawsOnePixelOrNothing : Prop :=
  (∀ (x y : Int) (c : Word) (s : State), s.mode = .ready →
    (0 ≤ x ∧ x < s.width ∧ 0 ≤ y ∧ y < s.height →
      exec (.pixel x y c) s = .next { s with
        pins := { s.pins with rs := .data, d := c, wr := .active }
        trace := s.trace ++ eventsOf (colorBurst x y x y 1 c).transactions } ∧
      (eventsOf (colorBurst x y x y 1 c).transactions).length = 48) ∧
    (x < 0 ∨ x ≥ s.width ∨ y < 0 ∨ y ≥ s.height → exec (.pixel x y c) s = .next s)) ∧
  (∀ f : Fields, f.opc = 0x08 → decodeFields f = .ok (.pixel f.f0.toInt f.f1.toInt f.f4))

/-- 44_pixel_fastlines.md R106, R109 (decision D15): in READY, VLINE from a start inside the frame sends the run cut at
the bottom edge, one word a pixel; from a start outside, or with a length below 1, it does nothing. The hand-over to
`drawPixel` at length 1 is not observable. -/
def Obligations.VlineDrawsClippedRun : Prop :=
  ∀ (x y h : Int) (c : Word) (s : State), s.mode = .ready →
    (0 ≤ x ∧ x < s.width ∧ 0 ≤ y ∧ y < s.height ∧ 1 ≤ h →
      exec (.vline x y h c) s = .next { s with
        pins := { s.pins with rs := .data, d := c, wr := .active }
        trace := s.trace ++ eventsOf
          (colorBurst x y x (y + min h (s.height - y) - 1) (min h (s.height - y)).toNat c).transactions }) ∧
    (x < 0 ∨ x ≥ s.width ∨ y < 0 ∨ y ≥ s.height ∨ h < 1 → exec (.vline x y h c) s = .next s)

/-- 44_pixel_fastlines.md R107, R109 (decision D15): HLINE, the same along x. -/
def Obligations.HlineDrawsClippedRun : Prop :=
  ∀ (x y w : Int) (c : Word) (s : State), s.mode = .ready →
    (0 ≤ x ∧ x < s.width ∧ 0 ≤ y ∧ y < s.height ∧ 1 ≤ w →
      exec (.hline x y w c) s = .next { s with
        pins := { s.pins with rs := .data, d := c, wr := .active }
        trace := s.trace ++ eventsOf
          (colorBurst x y (x + min w (s.width - x) - 1) y (min w (s.width - x)).toNat c).transactions }) ∧
    (x < 0 ∨ x ≥ s.width ∨ y < 0 ∨ y ≥ s.height ∨ w < 1 → exec (.hline x y w c) s = .next s)

/-- 45_fill.md R115, R117 (decisions D16, D17): in READY, FILLRECT clips width against WIDTH and height against HEIGHT
(90_conflicts.md C2) and sends exactly `w × h` words; with a clipped side of 1 it is the pixel `(x, y)`
(90_conflicts.md C5); from a start outside, or with a side below 1, it does nothing. -/
def Obligations.FillrectFillsClippedRectangle : Prop :=
  ∀ (x y w h : Int) (c : Word) (s : State), s.mode = .ready →
    (0 ≤ x ∧ x < s.width ∧ 0 ≤ y ∧ y < s.height ∧ 2 ≤ min w (s.width - x) ∧ 2 ≤ min h (s.height - y) →
      exec (.fillrect x y w h c) s = .next { s with
        pins := { s.pins with rs := .data, d := c, wr := .active }
        trace := s.trace ++ eventsOf
          (colorBurst x y (x + min w (s.width - x) - 1) (y + min h (s.height - y) - 1)
            (min w (s.width - x) * min h (s.height - y)).toNat c).transactions }) ∧
    (0 ≤ x ∧ x < s.width ∧ 0 ≤ y ∧ y < s.height ∧ 1 ≤ w ∧ 1 ≤ h ∧
        (min w (s.width - x) = 1 ∨ min h (s.height - y) = 1) →
      exec (.fillrect x y w h c) s = exec (.pixel x y c) s) ∧
    (x < 0 ∨ x ≥ s.width ∨ y < 0 ∨ y ≥ s.height ∨ w < 1 ∨ h < 1 → exec (.fillrect x y w h c) s = .next s)

/-- 45_fill.md R116: FILLSCR is FILLRECT over the full logical extent, so in READY it sends WIDTH × HEIGHT words into the
window `(0,0)-(WIDTH−1, HEIGHT−1)`, and on a frame one pixel wide or tall one word (90_conflicts.md C5); its operand is F4,
F0 to F3 ignored. -/
def Obligations.FillscrFillsWholeFrame : Prop :=
  (∀ (c : Word) (s : State), 1 ≤ s.width → 1 ≤ s.height →
    exec (.fillscr c) s = exec (.fillrect 0 0 s.width s.height c) s ∧
    (s.mode = .ready → 1 < s.width → 1 < s.height →
      exec (.fillscr c) s = .next { s with
        pins := { s.pins with rs := .data, d := c, wr := .active }
        trace := s.trace ++ eventsOf
          (colorBurst 0 0 (s.width - 1) (s.height - 1) (s.width * s.height) c).transactions }) ∧
    (s.mode = .ready → s.width = 1 ∨ s.height = 1 →
      exec (.fillscr c) s = .next { s with
        pins := { s.pins with rs := .data, d := c, wr := .active }
        trace := s.trace ++ eventsOf (colorBurst 0 0 0 0 1 c).transactions })) ∧
  (∀ f : Fields, f.opc = 0x0C → decodeFields f = .ok (.fillscr f.f4))

/-! ## Lines -/

/-- 46_line.md R120, 60_exceptions.md R158: in READY, LINE completes, and is the calls it makes, each the operation of that
name with LINE's colour, one after another. -/
def Obligations.LineIsItsCallsInOrder : Prop :=
  ∀ (x0 y0 x1 y1 : Int) (c : Word) (s : State), s.mode = .ready →
    ∃ t, exec (.line x0 y0 x1 y1 c) s = .next t ∧
      execAll ((lineCalls s.width s.height x0 y0 x1 y1).map (callInstr c)) s = .next t

/-- 46_line.md R121 (decision D19 for `>=`): in READY, a line with both endpoints off one side does nothing. -/
def Obligations.LineOffOneSideDrawsNothing : Prop :=
  ∀ (x0 y0 x1 y1 : Int) (c : Word) (s : State), s.mode = .ready →
    (x0 < 0 ∧ x1 < 0) ∨ (y0 < 0 ∧ y1 < 0) ∨ (x0 ≥ s.width ∧ x1 ≥ s.width) ∨ (y0 ≥ s.height ∧ y1 ≥ s.height) →
    exec (.line x0 y0 x1 y1 c) s = .next s

/-- 46_line.md R122: a line that is not rejected is drawn with each negative coordinate replaced by 0, independently, and
then all four are in 0..32767. -/
def Obligations.LineClampsNegativeCoordinates : Prop :=
  ∀ (x0 y0 x1 y1 : Int) (c : Word) (s : State), 1 ≤ s.width → 1 ≤ s.height →
    (Instr.line x0 y0 x1 y1 c).WellFormed →
    ¬((x0 < 0 ∧ x1 < 0) ∨ (y0 < 0 ∧ y1 < 0) ∨ (x0 ≥ s.width ∧ x1 ≥ s.width) ∨ (y0 ≥ s.height ∧ y1 ≥ s.height)) →
    exec (.line x0 y0 x1 y1 c) s = exec (.line (max x0 0) (max y0 0) (max x1 0) (max y1 0) c) s ∧
    (∀ v ∈ [x0, y0, x1, y1], 0 ≤ max v 0 ∧ max v 0 ≤ 32767)

/-- 46_line.md R123 (decision D20): after clamping, a line with equal y is the horizontal fast line from the lower x with
length `|Δx| + 1` (a single point among them), and else one with equal x the vertical one. -/
def Obligations.DegenerateLineIsFastLine : Prop :=
  ∀ (x0 y0 x1 y1 : Int) (c : Word) (s : State), s.mode = .ready →
    0 ≤ x0 → 0 ≤ y0 → 0 ≤ x1 → 0 ≤ y1 →
    ¬((x0 ≥ s.width ∧ x1 ≥ s.width) ∨ (y0 ≥ s.height ∧ y1 ≥ s.height)) →
    (y0 = y1 → exec (.line x0 y0 x1 y1 c) s = exec (.hline (min x0 x1) y0 (max x0 x1 - min x0 x1 + 1) c) s) ∧
    (x0 = x1 → y0 ≠ y1 → exec (.line x0 y0 x1 y1 c) s = exec (.vline x0 (min y0 y1) (max y0 y1 - min y0 y1 + 1) c) s) ∧
    (x0 = x1 → y0 = y1 → exec (.line x0 y0 x1 y1 c) s = exec (.pixel x0 y0 c) s)

/-- 46_line.md R128 (d): reversing the endpoints gives the same calls in the same order, so the same operation. -/
def Obligations.LineReversalChangesNothing : Prop :=
  ∀ (x0 y0 x1 y1 : Int) (c : Word) (s : State),
    lineCalls s.width s.height x0 y0 x1 y1 = lineCalls s.width s.height x1 y1 x0 y0 ∧
    exec (.line x0 y0 x1 y1 c) s = exec (.line x1 y1 x0 y0 c) s

/-- 46_line.md R124, R125, R126, R128 (c) (decisions D21, D22): the runs of a line that is not rejected cover, in order,
exactly one point for each position of the major axis, the Bresenham points of the clamped endpoints `(a, b)` and `(a', b')`;
the first and the last of them are those two endpoints, ordered along the major axis. -/
def Obligations.LineRunsCoverBresenhamPoints : Prop :=
  ∀ (W H x0 y0 x1 y1 a b a' b' : Int),
    ¬((x0 < 0 ∧ x1 < 0) ∨ (y0 < 0 ∧ y1 < 0) ∨ (x0 ≥ W ∧ x1 ≥ W) ∨ (y0 ≥ H ∧ y1 ≥ H)) →
    a = max x0 0 → b = max y0 0 → a' = max x1 0 → b' = max y1 0 →
    (lineCalls W H x0 y0 x1 y1).flatMap callPoints = linePoints a b a' b' ∧
    (RunsForward a b a' b' →
      ((lineCalls W H x0 y0 x1 y1).flatMap callPoints).head? = some (a, b) ∧
      ((lineCalls W H x0 y0 x1 y1).flatMap callPoints).getLast? = some (a', b')) ∧
    (¬RunsForward a b a' b' →
      ((lineCalls W H x0 y0 x1 y1).flatMap callPoints).head? = some (a', b') ∧
      ((lineCalls W H x0 y0 x1 y1).flatMap callPoints).getLast? = some (a, b))

/-- 46_line.md R128 (c), 20_memory.md R31: what LINE writes in the controller's terms: bursts within the window contract,
whose pixels, in order, are the Bresenham points of the clamped endpoints that lie in the frame, all in LINE's colour. -/
def Obligations.LineWritesBresenhamPixelsInFrame : Prop :=
  ∀ (x0 y0 x1 y1 : Int) (c : Word) (s t : State), 1 ≤ s.width → s.width ≤ 32767 → 1 ≤ s.height → s.height ≤ 32767 →
    ¬((x0 < 0 ∧ x1 < 0) ∨ (y0 < 0 ∧ y1 < 0) ∨ (x0 ≥ s.width ∧ x1 ≥ s.width) ∨ (y0 ≥ s.height ∧ y1 ≥ s.height)) →
    exec (.line x0 y0 x1 y1 c) s = .next t →
    ∃ bs : List Burst, t.trace = s.trace ++ eventsOf (bs.flatMap Burst.transactions) ∧
      (∀ b ∈ bs, b.Ok s.width s.height) ∧
      bs.flatMap Burst.pixels =
        ((linePoints (max x0 0) (max y0 0) (max x1 0) (max y1 0)).filter (inFrame s.width s.height)).map
          (fun p => ((p.1.toNat, p.2.toNat), c))

/-- 46_line.md R128 (a): a general line makes one call for each of its `dy` row changes and one more, so it never opens
more windows than it has rows. -/
def Obligations.LineMakesOneCallPerRow : Prop :=
  ∀ (W H x0 y0 x1 y1 : Int), 0 ≤ x0 → 0 ≤ y0 → 0 ≤ x1 → 0 ≤ y1 → x0 ≠ x1 → y0 ≠ y1 →
    ¬((x0 ≥ W ∧ x1 ≥ W) ∨ (y0 ≥ H ∧ y1 ≥ H)) →
    (lineCalls W H x0 y0 x1 y1).length = min (x1 - x0).natAbs (y1 - y0).natAbs + 1

/-- 46_line.md R128 (b): a 45-degree line makes `dx + 1` pixel calls, from its left end, and no fast line. -/
def Obligations.DiagonalLineIsPixels : Prop :=
  ∀ (W H x0 y0 x1 y1 : Int), 0 ≤ x0 → 0 ≤ y0 → 0 ≤ y1 → x0 < x1 → x1 - x0 = max (y1 - y0) (y0 - y1) →
    ¬((x0 ≥ W ∧ x1 ≥ W) ∨ (y0 ≥ H ∧ y1 ≥ H)) →
    lineCalls W H x0 y0 x1 y1 =
      (List.range (x1 - x0 + 1).toNat).map
        (fun k : Nat => .pixel (x0 + (k : Int)) (if y0 < y1 then y0 + (k : Int) else y0 - (k : Int)))

/-! ## Colour -/

/-- 47_color.md R135 (RES and the mode clause: decisions D24, D13): in either mode COLOR565 sets RES to the 5-6-5 word,
truncating the low bits of each channel, and changes nothing else. -/
def Obligations.Color565SetsResult : Prop :=
  ∀ (r g b : Byte) (s : State), ∃ v : Word,
    exec (.color565 r g b) s = .next { s with res := v } ∧
    v.extractLsb' 11 5 = r.extractLsb' 3 5 ∧ v.extractLsb' 5 6 = g.extractLsb' 2 6 ∧ v.extractLsb' 0 5 = b.extractLsb' 3 5 ∧
    v.toNat = r.toNat / 8 * 2048 + g.toNat / 4 * 32 + b.toNat / 8

/-! ## Frames and whole-machine rules -/

/-- Frame of every operation (10_state.md R10 to R17, 20_memory.md R40): when `exec` answers a next state, BUSY, the latch,
the port and the position are as they were; the trace only grows; MODE, CS, RD and RST change only by INIT; ROT, WIDTH and
HEIGHT only by INIT and SETROT; RES only by COLOR565; COLOR565 moves no pin and makes no event. -/
def Obligations.OperationsChangeOnlyTheirState : Prop :=
  ∀ (i : Instr) (s t : State), exec i s = .next t →
    t.busy = s.busy ∧ t.latch = s.latch ∧ t.inputs = s.inputs ∧ t.todo = s.todo ∧ s.trace <+: t.trace ∧
    (i ≠ .init → t.mode = s.mode ∧ t.pins.cs = s.pins.cs ∧ t.pins.rd = s.pins.rd ∧ t.pins.rst = s.pins.rst) ∧
    (i ≠ .init → (∀ r, i ≠ .setrot r) → t.rot = s.rot ∧ t.width = s.width ∧ t.height = s.height) ∧
    ((∀ r g b, i ≠ .color565 r g b) → t.res = s.res) ∧
    (∀ r g b, i = .color565 r g b → t.pins = s.pins ∧ t.trace = s.trace)

/-- 10_state.md R14: the only change of MODE a step can make to UNINIT is by an accepted INIT, and to READY back to UNINIT
only by hardware reset. -/
def Obligations.ModeChangesOnlyByInitAndReset : Prop :=
  ∀ s t : State, s.busy = false → step s = .next t → t.mode ≠ s.mode →
    (s.mode = .uninit ∧ t.mode = .ready ∧ ∃ d rest, s.inputs = .present d :: rest ∧ decode d = .ok .init) ∨
    (s.mode = .ready ∧ t.mode = .uninit ∧ ∃ rest, s.inputs = .hardwareReset :: rest)

/-- 10_state.md R20: INIT drives RD to idle and CS to active; no operation drives RD to active or CS to inactive, and only
INIT writes RST. -/
def Obligations.ControlLinesAreNeverMisdriven : Prop :=
  (∀ (i : Instr) (s t : State) (e : Event), exec i s = .next t → e ∈ t.trace.drop s.trace.length →
    e ≠ .pinWrite (.rd .active) ∧ e ≠ .pinWrite (.cs .inactive) ∧
    (∀ l, e = .pinWrite (.rst l) → i = .init)) ∧
  (∀ s t : State, exec .init s = .next t →
    .pinWrite (.rd .idle) ∈ t.trace.drop s.trace.length ∧ .pinWrite (.cs .active) ∈ t.trace.drop s.trace.length)

/-- 20_memory.md R33, 10_state.md R25 (last paragraph), 93_implementation_defined.md U8: what an operation latches does not
depend on the levels the pins held before it, D[15:8] and the reset levels among them. -/
def Obligations.LatchedTraceForgetsHeldLevels : Prop :=
  ∀ (i : Instr) (s t : State) (p q : Pins) (v w : Bool), exec i s = .next t →
    latchedFrom p v (t.trace.drop s.trace.length) = latchedFrom q w (t.trace.drop s.trace.length)

/-- 10_state.md R15, R17, 47_color.md R136: no operation reads ROT or RES: changed values of them change neither what is
accepted nor the events, the pins, MODE or the dimensions afterwards, nor the ROT that INIT and SETROT leave or the RES that
COLOR565 leaves; an operation that does not write one of them keeps the changed value. -/
def Obligations.RotationAndResultAreNeverRead : Prop :=
  ∀ (i : Instr) (s t : State) (q : Fin 4) (v : Word), exec i s = .next t →
    ∃ t', exec i { s with rot := q, res := v } = .next t' ∧ t'.trace = t.trace ∧ t'.pins = t.pins ∧
      t'.mode = t.mode ∧ t'.width = t.width ∧ t'.height = t.height ∧
      (i = .init ∨ (∃ r, i = .setrot r) → t'.rot = t.rot) ∧
      (i ≠ .init → (∀ r, i ≠ .setrot r) → t'.rot = q) ∧
      ((∃ r g b, i = .color565 r g b) → t'.res = t.res) ∧
      ((∀ r g b, i ≠ .color565 r g b) → t'.res = v)

/-- 44_pixel_fastlines.md R108, 45_fill.md R118, 46_line.md R128 (e), 20_memory.md R31: everything a drawing operation
sends is bursts within the window contract: every window valid in the logical frame, every stream filling its window
exactly once; with dimensions in R10's range no coordinate loses a bit on the wire. -/
def Obligations.DrawingKeepsWindowContract : Prop :=
  ∀ (i : Instr) (s t : State), isDrawing i = true → s.width ≤ 32767 → s.height ≤ 32767 → exec i s = .next t →
    ∃ bs : List Burst, t.trace = s.trace ++ eventsOf (bs.flatMap Burst.transactions) ∧
      ∀ b ∈ bs, b.Ok s.width s.height ∧ b.window.x1 ≤ 32766 ∧ b.window.y1 ≤ 32766

/-- 60_exceptions.md R165: the number of events of each operation: exact where the rule is exact, bounded by the panel
where it gives a bound; a line makes at most 32769 calls. -/
def Obligations.EventCountsAreBounded : Prop :=
  ∀ (i : Instr) (s t : State), i.WellFormed → exec i s = .next t →
    (∀ b, i = .wrcmd b ∨ i = .wrdat8 b → t.trace.length = s.trace.length + 4) ∧
    (∀ w, i = .wrdat16 w → t.trace.length = s.trace.length + 4) ∧
    (∀ on, i = .invert on → t.trace.length = s.trace.length + 4) ∧
    (∀ r, i = .setrot r → t.trace.length = s.trace.length + 8) ∧
    (∀ x0 y0 x1 y1, i = .setwin x0 y0 x1 y1 → t.trace.length = s.trace.length + 44) ∧
    (i = .init → t.trace.length = s.trace.length + 42) ∧
    (∀ r g b, i = .color565 r g b → t.trace.length = s.trace.length) ∧
    (∀ x y c, i = .pixel x y c → t.trace.length ≤ s.trace.length + 48) ∧
    (∀ x y n c, i = .vline x y n c ∨ i = .hline x y n c →
      t.trace.length ≤ s.trace.length + 4 * (11 + max s.width s.height)) ∧
    (∀ x y w h c, i = .fillrect x y w h c ∨ i = .fillscr c →
      t.trace.length ≤ s.trace.length + 4 * (11 + s.width * s.height)) ∧
    (∀ x0 y0 x1 y1 c, i = .line x0 y0 x1 y1 c → (lineCalls s.width s.height x0 y0 x1 y1).length ≤ 32769)

/-! ## Invariant and refinement -/

/-- The state after reset is a sound state of the block at rest (10_state.md R25; the range of WIDTH and HEIGHT there rests
on log entry 2). -/
def Obligations.ResetStateIsSound : Prop := Inv State.reset

/-- Every step keeps the block sound: at rest between operations (10_state.md R23), WIDTH and HEIGHT in 1..32767 (R10),
`(WIDTH, HEIGHT) = dims(ROT)` whenever MODE is READY (R16), CS active, RD idle, RST inactive and WR at active once ready
(R20, R21), the pins untouched since reset while UNINIT (R25, 60_exceptions.md R156). -/
def Obligations.StepKeepsBlockSound : Prop :=
  ∀ s t : State, Inv s → step s = .next t → Inv t

/-- 10_state.md R11, R23: the block taken one event at a time refines the block taken one operation at a time. From a
block that is not busy, presenting a descriptor is accepted by both or refused by both for the same reason; and after
acceptance, one event-level step for each line of the expansion and one for the fall of BUSY reach exactly the state that
`step` answers. -/
def Obligations.EventLevelRefinesCallLevel : Prop :=
  ∀ (s : State) (d : Descriptor) (rest : List HostInput), s.busy = false →
    (∀ r, eventStep (.present d) s = .refused r ↔ step { s with inputs := .present d :: rest } = .refused r) ∧
    (∀ t, eventStep (.present d) s = .next t →
      t.busy = true ∧ (eventRun t.todo.length t).busy = true ∧
      step { s with inputs := .present d :: rest } =
        .next { eventRun (t.todo.length + 1) t with inputs := rest })

/-! ## Operand reading and the line's geometry -/

/-- 30_encoding.md R50, R52, R54 (the numbering and widths: decisions D2, D3, D25): the fields are the descriptor's slices,
and for each opcode the operands are read from them in R52's order: `int16` for drawing coordinates and lengths, the whole
field for SETWIN and WRDAT16, F4 as the colour, F0[7:0] for bytes, F0[0] for INVERT, F0[7:0], F1[7:0], F2[7:0] for the
channels. -/
def Obligations.DecodeReadsOperandsFromFields : Prop :=
  (∀ d : Descriptor, decode d = decodeFields
    ⟨d.extractLsb' 80 8, d.extractLsb' 64 16, d.extractLsb' 48 16, d.extractLsb' 32 16, d.extractLsb' 16 16,
      d.extractLsb' 0 16⟩) ∧
  (∀ f : Fields,
    (f.opc = 0x01 → decodeFields f = .ok .init) ∧
    (f.opc = 0x02 → decodeFields f = .ok (.wrcmd (f.f0.extractLsb' 0 8))) ∧
    (f.opc = 0x03 → decodeFields f = .ok (.wrdat8 (f.f0.extractLsb' 0 8))) ∧
    (f.opc = 0x04 → decodeFields f = .ok (.wrdat16 f.f0)) ∧
    (f.opc = 0x05 → decodeFields f = .ok (.setwin f.f0 f.f1 f.f2 f.f3)) ∧
    (f.opc = 0x06 → decodeFields f = .ok (.setrot (f.f0.extractLsb' 0 8))) ∧
    (f.opc = 0x07 → decodeFields f = .ok (.invert (f.f0.getLsbD 0))) ∧
    (f.opc = 0x08 → decodeFields f = .ok (.pixel f.f0.toInt f.f1.toInt f.f4)) ∧
    (f.opc = 0x09 → decodeFields f = .ok (.vline f.f0.toInt f.f1.toInt f.f2.toInt f.f4)) ∧
    (f.opc = 0x0A → decodeFields f = .ok (.hline f.f0.toInt f.f1.toInt f.f2.toInt f.f4)) ∧
    (f.opc = 0x0B → decodeFields f = .ok (.fillrect f.f0.toInt f.f1.toInt f.f2.toInt f.f3.toInt f.f4)) ∧
    (f.opc = 0x0C → decodeFields f = .ok (.fillscr f.f4)) ∧
    (f.opc = 0x0D → decodeFields f = .ok (.line f.f0.toInt f.f1.toInt f.f2.toInt f.f3.toInt f.f4)) ∧
    (f.opc = 0x0E → decodeFields f =
      .ok (.color565 (f.f0.extractLsb' 0 8) (f.f1.extractLsb' 0 8) (f.f2.extractLsb' 0 8))))

/-- 46_line.md R128 (c), on the segment itself: every point a line's calls cover lies within half a pixel, measured along the
minor axis, of the straight segment between the clamped endpoints `(a, b)` and `(a', b')`, and there is one point for each
position of the major axis. Neither the set-up nor the closed formula of the points stands in this statement. -/
def Obligations.LinePointsLieNearestTheSegment : Prop :=
  ∀ (W H x0 y0 x1 y1 a b a' b' : Int),
    ¬((x0 < 0 ∧ x1 < 0) ∨ (y0 < 0 ∧ y1 < 0) ∨ (x0 ≥ W ∧ x1 ≥ W) ∨ (y0 ≥ H ∧ y1 ≥ H)) →
    a = max x0 0 → b = max y0 0 → a' = max x1 0 → b' = max y1 0 →
    ((lineCalls W H x0 y0 x1 y1).flatMap callPoints).length = max (a' - a).natAbs (b' - b).natAbs + 1 ∧
    ∀ p ∈ (lineCalls W H x0 y0 x1 y1).flatMap callPoints,
      min a a' ≤ p.1 ∧ p.1 ≤ max a a' ∧ min b b' ≤ p.2 ∧ p.2 ≤ max b b' ∧
      2 * ((p.2 - b) * (a' - a) - (p.1 - a) * (b' - b)).natAbs ≤ max (a' - a).natAbs (b' - b).natAbs
end

