-- ==== Sys2Proof/Laws/Decode.lean ====
section
/-! SUPPORT. The descriptor's fields through joining and splitting, and each operand form through its field. -/

namespace Sys2Proof.Laws

/-- Splitting what was joined gives the fields back: no bit of a field is dropped or shared (R50). -/
theorem split_join (f : Fields) : splitDescriptor (joinDescriptor f) = f := by
  obtain ⟨opc, f0, f1, f2, f3, f4⟩ := f
  simp only [splitDescriptor, joinDescriptor, Fields.mk.injEq]
  refine ⟨?_, ?_, ?_, ?_, ?_, ?_⟩ <;>
    (apply BitVec.eq_of_getLsbD_eq
     intro i hi
     simp only [BitVec.getLsbD_extractLsb', BitVec.getLsbD_append, hi, decide_true, Bool.true_and]
     repeat (first | rw [if_pos (by omega)] | rw [if_neg (by omega)])
     congr 1
     try omega)

theorem decode_encode_eq (i : Instr) : decode (encode i) = decodeFields i.fields := by
  simp [decode, encode, split_join]

/-- An `int16` operand survives its field (R54). -/
theorem sext16_fieldOfInt {v : Int} (h : InInt16 v) : sext16 (fieldOfInt v) = v := by
  obtain ⟨h1, h2⟩ := h
  rw [sext16, fieldOfInt, BitVec.toInt_ofInt]
  apply Int.bmod_eq_of_le <;> omega

/-- Every field reads as an `int16` in range (R54). -/
theorem sext16_inRange (v : Word) : InInt16 (sext16 v) := by
  have h1 := BitVec.le_toInt v
  have h2 := BitVec.toInt_lt (x := v)
  constructor <;> simp only [sext16] <;> omega

/-- A byte operand survives its field (R54). -/
theorem fieldByte_fieldOfByte (b : Byte) : fieldByte (fieldOfByte b) = b := by
  apply BitVec.eq_of_getLsbD_eq
  intro i hi
  have h16 : i < 16 := by omega
  simp [fieldByte, fieldOfByte, hi, h16]

end Sys2Proof.Laws
end

