-- ==== Sys2Proof/Laws/State.lean ====
section
/-! SUPPORT. One lemma per field per update of State and Pins, so that no proof unfolds a record update. -/

namespace Sys2Proof.Laws

open Sys2Proof.Machine

section
variable (s : State) (e : Event) (q : Fin 4) (w h : Nat) (v : Word)

@[simp] theorem act_emit_mode : (s.act (.emit e)).mode = s.mode := rfl
@[simp] theorem act_emit_rot : (s.act (.emit e)).rot = s.rot := rfl
@[simp] theorem act_emit_width : (s.act (.emit e)).width = s.width := rfl
@[simp] theorem act_emit_height : (s.act (.emit e)).height = s.height := rfl
@[simp] theorem act_emit_res : (s.act (.emit e)).res = s.res := rfl
@[simp] theorem act_emit_pins : (s.act (.emit e)).pins = s.pins.after e := rfl
@[simp] theorem act_emit_trace : (s.act (.emit e)).trace = s.trace ++ [e] := rfl

@[simp] theorem act_geometry_mode : (s.act (.geometry q w h)).mode = s.mode := rfl
@[simp] theorem act_geometry_rot : (s.act (.geometry q w h)).rot = q := rfl
@[simp] theorem act_geometry_width : (s.act (.geometry q w h)).width = w := rfl
@[simp] theorem act_geometry_height : (s.act (.geometry q w h)).height = h := rfl
@[simp] theorem act_geometry_res : (s.act (.geometry q w h)).res = s.res := rfl
@[simp] theorem act_geometry_pins : (s.act (.geometry q w h)).pins = s.pins := rfl
@[simp] theorem act_geometry_trace : (s.act (.geometry q w h)).trace = s.trace := rfl

@[simp] theorem act_result_mode : (s.act (.result v)).mode = s.mode := rfl
@[simp] theorem act_result_rot : (s.act (.result v)).rot = s.rot := rfl
@[simp] theorem act_result_width : (s.act (.result v)).width = s.width := rfl
@[simp] theorem act_result_height : (s.act (.result v)).height = s.height := rfl
@[simp] theorem act_result_res : (s.act (.result v)).res = v := rfl
@[simp] theorem act_result_pins : (s.act (.result v)).pins = s.pins := rfl
@[simp] theorem act_result_trace : (s.act (.result v)).trace = s.trace := rfl

@[simp] theorem act_ready_mode : (s.act .ready).mode = .ready := rfl
@[simp] theorem act_ready_rot : (s.act .ready).rot = s.rot := rfl
@[simp] theorem act_ready_width : (s.act .ready).width = s.width := rfl
@[simp] theorem act_ready_height : (s.act .ready).height = s.height := rfl
@[simp] theorem act_ready_res : (s.act .ready).res = s.res := rfl
@[simp] theorem act_ready_pins : (s.act .ready).pins = s.pins := rfl
@[simp] theorem act_ready_trace : (s.act .ready).trace = s.trace := rfl

end

section
variable (s : State) (a : Action)

/-- No line of pseudocode touches the host port, the latch or the position in the operation (R12, R23). -/
@[simp] theorem act_busy : (s.act a).busy = s.busy := by cases a <;> rfl
@[simp] theorem act_latch : (s.act a).latch = s.latch := by cases a <;> rfl
@[simp] theorem act_todo : (s.act a).todo = s.todo := by cases a <;> rfl
@[simp] theorem act_inputs : (s.act a).inputs = s.inputs := by cases a <;> rfl

end

section
variable (s : State) (d : Descriptor)

@[simp] theorem accept_mode : (s.accept d).mode = s.mode := rfl
@[simp] theorem accept_rot : (s.accept d).rot = s.rot := rfl
@[simp] theorem accept_width : (s.accept d).width = s.width := rfl
@[simp] theorem accept_height : (s.accept d).height = s.height := rfl
@[simp] theorem accept_res : (s.accept d).res = s.res := rfl
@[simp] theorem accept_busy : (s.accept d).busy = true := rfl
@[simp] theorem accept_pins : (s.accept d).pins = s.pins := rfl
@[simp] theorem accept_latch : (s.accept d).latch = splitDescriptor d := rfl
@[simp] theorem accept_todo : (s.accept d).todo = s.todo := rfl
@[simp] theorem accept_trace : (s.accept d).trace = s.trace := rfl
@[simp] theorem accept_inputs : (s.accept d).inputs = s.inputs := rfl

@[simp] theorem complete_mode : s.complete.mode = s.mode := rfl
@[simp] theorem complete_rot : s.complete.rot = s.rot := rfl
@[simp] theorem complete_width : s.complete.width = s.width := rfl
@[simp] theorem complete_height : s.complete.height = s.height := rfl
@[simp] theorem complete_res : s.complete.res = s.res := rfl
@[simp] theorem complete_busy : s.complete.busy = false := rfl
@[simp] theorem complete_pins : s.complete.pins = s.pins := rfl
@[simp] theorem complete_latch : s.complete.latch = s.latch := rfl
@[simp] theorem complete_todo : s.complete.todo = [] := rfl
@[simp] theorem complete_trace : s.complete.trace = s.trace := rfl
@[simp] theorem complete_inputs : s.complete.inputs = s.inputs := rfl

@[simp] theorem hardwareReset_mode : s.hardwareReset.mode = .uninit := rfl
@[simp] theorem hardwareReset_busy : s.hardwareReset.busy = false := rfl
@[simp] theorem hardwareReset_pins : s.hardwareReset.pins = Pins.reset := rfl
@[simp] theorem hardwareReset_todo : s.hardwareReset.todo = [] := rfl
@[simp] theorem hardwareReset_width : s.hardwareReset.width = 1 := rfl
@[simp] theorem hardwareReset_height : s.hardwareReset.height = 1 := rfl
@[simp] theorem hardwareReset_trace : s.hardwareReset.trace = s.trace := rfl
@[simp] theorem hardwareReset_inputs : s.hardwareReset.inputs = s.inputs := rfl

end

section
variable (p : Pins) (e : Event) (w : PinWrite) (v : BusValue) (n : Nat)

@[simp] theorem after_pinWrite : p.after (.pinWrite w) = p.write w := rfl
@[simp] theorem after_dataWrite : p.after (.dataWrite v) = p.drive v := rfl
@[simp] theorem after_delay : p.after (.delay n) = p := rfl

end

end Sys2Proof.Laws
end

