-- ==== Sys2Proof/Laws/Ops.lean ====
section
/-! SUPPORT. What performing an expansion can do, and each shared procedure as the transactions it sends. -/

namespace Sys2Proof.Laws

open Sys2Proof.Machine

/-! Byte halves -/

/-- The upper half of two bytes put together (R8). -/
@[simp] theorem hi8_append (a b : Byte) : hi8 (a ++ b) = a := by
  apply BitVec.eq_of_getLsbD_eq
  intro i hi
  rw [hi8, BitVec.getLsbD_extractLsb', BitVec.getLsbD_append, if_neg (by omega)]
  simp [hi]

/-- The lower half of two bytes put together (R8). -/
@[simp] theorem lo8_append (a b : Byte) : lo8 (a ++ b) = b := by
  apply BitVec.eq_of_getLsbD_eq
  intro i hi
  rw [lo8, BitVec.getLsbD_extractLsb', BitVec.getLsbD_append, if_pos (by omega)]
  simp [hi]

/-! Pins -/

@[simp] theorem afterAll_nil (p : Pins) : p.afterAll [] = p := rfl

@[simp] theorem afterAll_cons (p : Pins) (e : Event) (es : List Event) :
    p.afterAll (e :: es) = (p.after e).afterAll es := rfl

@[simp] theorem afterAll_append (p : Pins) (as bs : List Event) :
    p.afterAll (as ++ bs) = (p.afterAll as).afterAll bs := by
  simp [Pins.afterAll, List.foldl_append]

/-- A framed write leaves the pins as `settle` says (R74 to R76). -/
@[simp] theorem afterAll_events (p : Pins) (t : Transaction) : p.afterAll t.events = t.settle p := by
  cases t <;> rfl

@[simp] theorem settleAll_nil (p : Pins) : settleAll p [] = p := rfl

@[simp] theorem settleAll_cons (p : Pins) (t : Transaction) (ts : List Transaction) :
    settleAll p (t :: ts) = settleAll (t.settle p) ts := rfl

@[simp] theorem settleAll_append (p : Pins) (as bs : List Transaction) :
    settleAll p (as ++ bs) = settleAll (settleAll p as) bs := by
  simp [settleAll, List.foldl_append]

/-- A sequence of framed writes leaves the pins as its transactions say, one after another. -/
theorem afterAll_eventsOf (p : Pins) (ts : List Transaction) : p.afterAll (eventsOf ts) = settleAll p ts := by
  induction ts generalizing p with
  | nil => rfl
  | cons t ts ih => simpa [eventsOf] using ih (t.settle p)

/-- Framed writes leave CS, RD and RST alone (R73). -/
theorem settleAll_keeps (p : Pins) (ts : List Transaction) :
    (settleAll p ts).cs = p.cs ∧ (settleAll p ts).rd = p.rd ∧ (settleAll p ts).rst = p.rst := by
  induction ts generalizing p with
  | nil => simp
  | cons t ts ih => cases t <;> simpa [Transaction.settle] using ih _

/-- Only the last of several framed writes ending in a 16-bit one shows on the pins. -/
theorem settleAll_endsWord (p : Pins) (ts : List Transaction) (w : Word) :
    settleAll p (ts ++ [.data16 w]) = { p with rs := .data, d := w, wr := .active } := by
  obtain ⟨h1, h2, h3⟩ := settleAll_keeps p ts
  simp only [settleAll_append, settleAll_cons, settleAll_nil, Transaction.settle, h1, h2, h3]

/-! Performing -/

@[simp] theorem perform_nil (s : State) : s.perform [] = s := rfl

@[simp] theorem perform_cons (s : State) (a : Action) (as : List Action) :
    s.perform (a :: as) = (s.act a).perform as := rfl

@[simp] theorem perform_append (s : State) (as bs : List Action) :
    s.perform (as ++ bs) = (s.perform as).perform bs := by
  simp [State.perform, List.foldl_append]

/-- Performing events moves the pins and lengthens the trace; nothing else (R9). -/
theorem perform_emits (s : State) (es : List Event) :
    s.perform (emits es) = { s with pins := s.pins.afterAll es, trace := s.trace ++ es } := by
  induction es generalizing s with
  | nil => simp [emits]
  | cons e es ih =>
    have h := ih (s.act (.emit e))
    simp only [emits, List.map_cons, perform_cons] at h ⊢
    rw [h]
    simp

@[simp] theorem perform_busy (s : State) (as : List Action) : (s.perform as).busy = s.busy := by
  induction as generalizing s with
  | nil => rfl
  | cons a as ih => simp [ih]

@[simp] theorem perform_latch (s : State) (as : List Action) : (s.perform as).latch = s.latch := by
  induction as generalizing s with
  | nil => rfl
  | cons a as ih => simp [ih]

@[simp] theorem perform_todo (s : State) (as : List Action) : (s.perform as).todo = s.todo := by
  induction as generalizing s with
  | nil => rfl
  | cons a as ih => simp [ih]

@[simp] theorem perform_inputs (s : State) (as : List Action) : (s.perform as).inputs = s.inputs := by
  induction as generalizing s with
  | nil => rfl
  | cons a as ih => simp [ih]

/-- What was performed stays performed (R40). -/
theorem perform_trace_prefix (s : State) (as : List Action) : s.trace <+: (s.perform as).trace := by
  induction as generalizing s with
  | nil => exact List.prefix_rfl
  | cons a as ih =>
    refine List.IsPrefix.trans ?_ (ih (s.act a))
    cases a <;> simp

/-- No expansion leaves `READY` (R14). -/
theorem perform_mode_of_ready {s : State} (h : s.mode = .ready) (as : List Action) :
    (s.perform as).mode = .ready := by
  induction as generalizing s with
  | nil => exact h
  | cons a as ih => exact ih (by cases a <;> simp [h])

/-- An expansion never looks at the port, the latch or its own rest: it commutes with any change of them. -/
theorem perform_withPort (s : State) (as : List Action) (b : Bool) (l : Fields) (td : List Action)
    (ins : List HostInput) :
    { s with busy := b, latch := l, todo := td, inputs := ins }.perform as
      = { s.perform as with busy := b, latch := l, todo := td, inputs := ins } := by
  induction as generalizing s with
  | nil => rfl
  | cons a as ih =>
    have h := ih (s.act a)
    simp only [perform_cons]
    rw [← h]
    cases a <;> rfl

/-! Acceptance -/

theorem whenReady_next_iff {s t : State} {as : List Action} :
    s.whenReady as = .next t ↔ s.mode = .ready ∧ t = s.perform as := by
  unfold State.whenReady
  cases s.mode <;> simp [eq_comm]

theorem whenReady_of_ready {s : State} (h : s.mode = .ready) (as : List Action) :
    s.whenReady as = .next (s.perform as) := by simp [State.whenReady, h]

theorem whenReady_of_uninit {s : State} (h : s.mode = .uninit) (as : List Action) :
    s.whenReady as = .refused .notReady := by simp [State.whenReady, h]

/-! Procedures as transactions -/

theorem writeCommand_eq (b : Byte) : writeCommand b = eventsOf [.cmd b] := rfl

theorem writeData8_eq (b : Byte) : writeData8 b = eventsOf [.data8 b] := rfl

theorem writeData16_eq (w : Word) : writeData16 w = eventsOf [.data16 w] := rfl

theorem eventsOf_append (as bs : List Transaction) : eventsOf (as ++ bs) = eventsOf as ++ eventsOf bs := by
  simp [eventsOf]

theorem eventsOf_length (ts : List Transaction) : (eventsOf ts).length = 4 * ts.length := by
  induction ts with
  | nil => rfl
  | cons t ts ih =>
    have h : t.events.length = 4 := by cases t <;> rfl
    simp [eventsOf] at ih ⊢
    omega

/-- `setAddrWindow` sends the eleven transactions of R57. -/
theorem setAddrWindow_eq (x0 y0 x1 y1 : Word) :
    setAddrWindow x0 y0 x1 y1 = eventsOf (windowTransactions x0 y0 x1 y1) := rfl

/-- A stream of one colour sends that many 16-bit data writes. -/
theorem streamColor_eq (n : Nat) (c : Word) :
    streamColor n c = eventsOf (List.replicate n (.data16 c)) := by
  induction n with
  | zero => rfl
  | succ n ih =>
    simp only [streamColor, eventsOf, List.replicate_succ, List.flatten_cons, List.flatMap_cons] at ih ⊢
    rw [ih]
    rfl

/-- The word of a coordinate that is not negative. -/
theorem coordWord_of_nonneg {v : Int} (h : 0 ≤ v) : coordWord v = BitVec.ofNat 16 v.toNat := by
  obtain ⟨n, rfl⟩ := Int.eq_ofNat_of_zero_le h
  simp [coordWord]

end Sys2Proof.Laws
end

