-- ==== Sys2Proof/Laws/Draw.lean ====
section
/-! SUPPORT. One lemma a drawing procedure: the burst it sends, or nothing. -/

namespace Sys2Proof.Laws

open Sys2Proof.Machine

/-- A window opened on coordinates that are not negative, and the colour stream after it, are one burst. -/
theorem window_stream_eq {x0 y0 x1 y1 : Int} (hx0 : 0 ≤ x0) (hy0 : 0 ≤ y0) (hx1 : 0 ≤ x1) (hy1 : 0 ≤ y1) (n : Nat)
    (c : Word) :
    setAddrWindow (coordWord x0) (coordWord y0) (coordWord x1) (coordWord y1) ++ streamColor n c
      = eventsOf (colorBurst x0 y0 x1 y1 n c).transactions := by
  rw [setAddrWindow_eq, streamColor_eq, ← eventsOf_append, coordWord_of_nonneg hx0, coordWord_of_nonneg hy0,
    coordWord_of_nonneg hx1, coordWord_of_nonneg hy1]
  simp [Burst.transactions, colorBurst]

theorem drawPixel_outside {W H x y : Int} (h : OutsideFrame W H x y) (c : Word) : drawPixel W H x y c = [] := by
  simp only [drawPixel, h, ↓reduceIte]

/-- R105: inside the frame, a 1×1 window and one word. -/
theorem drawPixel_inside {W H x y : Int} (h : ¬OutsideFrame W H x y) (c : Word) :
    drawPixel W H x y c = eventsOf (colorBurst x y x y 1 c).transactions := by
  rw [drawPixel, if_neg h, ← window_stream_eq (by omega) (by omega) (by omega) (by omega)]
  simp [streamColor]

theorem clipLength_eq_min (start length bound : Int) : clipLength start length bound = min length (bound - start) := by
  unfold clipLength
  split <;> omega

theorem drawFastVLine_nothing {W H x y h : Int} (hn : OutsideFrame W H x y ∨ h < 1) (c : Word) :
    drawFastVLine W H x y h c = [] := by
  simp only [drawFastVLine, hn, ↓reduceIte]

/-- R106: the clipped run as one burst; the hand-over to `drawPixel` sends the same. -/
theorem drawFastVLine_run {W H x y h : Int} (hn : ¬(OutsideFrame W H x y ∨ h < 1)) (c : Word) :
    drawFastVLine W H x y h c
      = eventsOf (colorBurst x y x (y + min h (H - y) - 1) (min h (H - y)).toNat c).transactions := by
  rw [drawFastVLine, if_neg hn]
  simp only [clipLength_eq_min]
  split
  · rename_i h1
    rw [drawPixel_inside (by omega), h1]
    simp
  · exact window_stream_eq (by omega) (by omega) (by omega) (by omega) _ _

theorem drawFastHLine_nothing {W H x y w : Int} (hn : OutsideFrame W H x y ∨ w < 1) (c : Word) :
    drawFastHLine W H x y w c = [] := by
  simp only [drawFastHLine, hn, ↓reduceIte]

/-- R107: the same along x. -/
theorem drawFastHLine_run {W H x y w : Int} (hn : ¬(OutsideFrame W H x y ∨ w < 1)) (c : Word) :
    drawFastHLine W H x y w c
      = eventsOf (colorBurst x y (x + min w (W - x) - 1) y (min w (W - x)).toNat c).transactions := by
  rw [drawFastHLine, if_neg hn]
  simp only [clipLength_eq_min]
  split
  · rename_i h1
    rw [drawPixel_inside (by omega), h1]
    simp
  · exact window_stream_eq (by omega) (by omega) (by omega) (by omega) _ _

theorem fillRect_nothing {W H x y w h : Int} (hn : OutsideFrame W H x y ∨ w < 1 ∨ h < 1) (c : Word) :
    fillRect W H x y w h c = [] := by
  simp only [fillRect, hn, ↓reduceIte]

/-- R115 (c): a clipped side of length 1 draws the pixel `(x, y)`. -/
theorem fillRect_pixel {W H x y w h : Int} (hn : ¬(OutsideFrame W H x y ∨ w < 1 ∨ h < 1))
    (h1 : min w (W - x) = 1 ∨ min h (H - y) = 1) (c : Word) : fillRect W H x y w h c = drawPixel W H x y c := by
  rw [fillRect, if_neg hn]
  simp only [clipLength_eq_min, h1, ↓reduceIte]

/-- R115: the general branch as one burst. -/
theorem fillRect_burst {W H x y w h : Int} (hn : ¬(OutsideFrame W H x y ∨ w < 1 ∨ h < 1))
    (h1 : ¬(min w (W - x) = 1 ∨ min h (H - y) = 1)) (c : Word) :
    fillRect W H x y w h c
      = eventsOf (colorBurst x y (x + min w (W - x) - 1) (y + min h (H - y) - 1)
          (min w (W - x) * min h (H - y)).toNat c).transactions := by
  rw [fillRect, if_neg hn]
  simp only [clipLength_eq_min, h1, ↓reduceIte]
  exact window_stream_eq (by omega) (by omega) (by omega) (by omega) _ _

/-- After a burst of at least one word RS is at data, WR at active and the data lines hold the colour. -/
theorem afterAll_colorBurst (p : Pins) (x0 y0 x1 y1 : Int) {n : Nat} (hn : 0 < n) (c : Word) :
    p.afterAll (eventsOf (colorBurst x0 y0 x1 y1 n c).transactions)
      = { p with rs := .data, d := c, wr := .active } := by
  obtain ⟨m, rfl⟩ : ∃ m, n = m + 1 := ⟨n - 1, by omega⟩
  rw [afterAll_eventsOf, Burst.transactions, colorBurst]
  simp only [List.replicate_succ', List.map_append, List.map_cons, List.map_nil]
  rw [← List.append_assoc]
  exact settleAll_endsWord _ _ _

/-- A colour burst on a window inside the frame, with as many words as the window holds, is within the contract. -/
theorem colorBurst_ok {W H : Nat} {x0 y0 x1 y1 : Int} {n : Nat} (h1 : 0 ≤ x0) (h2 : x0 ≤ x1) (h3 : x1 < W) (h4 : 0 ≤ y0)
    (h5 : y0 ≤ y1) (h6 : y1 < H) (hn : (n : Int) = (x1 - x0 + 1) * (y1 - y0 + 1)) (c : Word) :
    (colorBurst x0 y0 x1 y1 n c).Ok W H := by
  refine ⟨⟨?_, ?_, ?_, ?_⟩, ?_⟩ <;> simp only [colorBurst]
  · omega
  · omega
  · omega
  · omega
  · simp only [List.length_replicate, Window.size, Window.columns]
    have a : ((x1.toNat - x0.toNat + 1 : Nat) : Int) = x1 - x0 + 1 := by omega
    have b : ((y1.toNat - y0.toNat + 1 : Nat) : Int) = y1 - y0 + 1 := by omega
    have h : (n : Int) = ((x1.toNat - x0.toNat + 1 : Nat) : Int) * ((y1.toNat - y0.toNat + 1 : Nat) : Int) := by
      rw [a, b]; exact hn
    exact_mod_cast h

/-- The pixels of a stream of one colour. -/
theorem pixels_replicate (n : Nat) (c : Word) (v : Window) :
    (Burst.mk v (List.replicate n c)).pixels = (List.range n).map (fun k => (v.target k, c)) := by
  apply List.ext_getElem
  · simp [Burst.pixels]
  · intro i h1 h2; simp [Burst.pixels]

theorem colorBurst_length (x0 y0 x1 y1 : Int) (n : Nat) (c : Word) :
    (eventsOf (colorBurst x0 y0 x1 y1 n c).transactions).length = 4 * (11 + n) := by
  rw [eventsOf_length]
  simp [Burst.transactions, colorBurst, windowTransactions]
  omega

/-- A drawing procedure sends framed writes and nothing else (R73). -/
theorem drawPixel_framed (W H x y : Int) (c : Word) : ∃ ts, drawPixel W H x y c = eventsOf ts := by
  by_cases h : OutsideFrame W H x y
  · exact ⟨[], drawPixel_outside h c⟩
  · exact ⟨_, drawPixel_inside h c⟩

theorem drawFastVLine_framed (W H x y n : Int) (c : Word) : ∃ ts, drawFastVLine W H x y n c = eventsOf ts := by
  by_cases h : OutsideFrame W H x y ∨ n < 1
  · exact ⟨[], drawFastVLine_nothing h c⟩
  · exact ⟨_, drawFastVLine_run h c⟩

theorem drawFastHLine_framed (W H x y n : Int) (c : Word) : ∃ ts, drawFastHLine W H x y n c = eventsOf ts := by
  by_cases h : OutsideFrame W H x y ∨ n < 1
  · exact ⟨[], drawFastHLine_nothing h c⟩
  · exact ⟨_, drawFastHLine_run h c⟩

theorem fillRect_framed (W H x y w h : Int) (c : Word) : ∃ ts, fillRect W H x y w h c = eventsOf ts := by
  by_cases hn : OutsideFrame W H x y ∨ w < 1 ∨ h < 1
  · exact ⟨[], fillRect_nothing hn c⟩
  · by_cases h1 : min w (W - x) = 1 ∨ min h (H - y) = 1
    · rw [fillRect_pixel hn h1]; exact drawPixel_framed W H x y c
    · exact ⟨_, fillRect_burst hn h1 c⟩

theorem drawCallEvents_framed (W H : Int) (c : Word) (k : DrawCall) : ∃ ts, drawCallEvents W H c k = eventsOf ts := by
  cases k with
  | hline x y n => exact drawFastHLine_framed W H x y n c
  | vline x y n => exact drawFastVLine_framed W H x y n c
  | pixel x y => exact drawPixel_framed W H x y c

theorem drawLine_framed (W H x0 y0 x1 y1 : Int) (c : Word) : ∃ ts, drawLine W H x0 y0 x1 y1 c = eventsOf ts := by
  unfold drawLine
  generalize lineCalls W H x0 y0 x1 y1 = ks
  induction ks with
  | nil => exact ⟨[], rfl⟩
  | cons k ks ih =>
    obtain ⟨ts, ht⟩ := drawCallEvents_framed W H c k
    obtain ⟨us, hu⟩ := ih
    exact ⟨ts ++ us, by rw [List.flatMap_cons, ht, hu, eventsOf_append]⟩

end Sys2Proof.Laws
end

