-- ==== Sys2Proof/Laws/Exec.lean ====
section
/-! SUPPORT. What `exec` and `step` can do, said once: an accepted operation performs its expansion. -/

namespace Sys2Proof.Laws

open Sys2Proof.Machine

/-- An operation accepted in the current mode performs its expansion; any other is refused by name (R156). -/
theorem exec_eq_script (i : Instr) (s : State) :
    exec i s = if acceptedIn i s.mode then .next (s.perform (script i s)) else .refused .notReady := by
  cases i <;> cases h : s.mode <;>
    simp [exec, execInit, execWrcmd, execWrdat8, execWrdat16, execSetwin, execSetrot, execInvert, execPixel, execVline,
      execHline, execFillrect, execFillscr, execLine, execColor565, State.whenReady, State.inAnyMode, script,
      acceptedIn, acceptedUninit, h]

/-- In `READY` every operation performs its expansion (R156). -/
theorem exec_of_ready {s : State} (h : s.mode = .ready) (i : Instr) : exec i s = .next (s.perform (script i s)) := by
  simp [exec_eq_script, acceptedIn, h]

/-- If `exec` answers a next state, the operation was accepted and that state is its expansion performed. -/
theorem exec_next {i : Instr} {s t : State} (h : exec i s = .next t) :
    acceptedIn i s.mode = true ∧ t = s.perform (script i s) := by
  rw [exec_eq_script] at h
  split at h
  · exact ⟨‹_›, by simpa [eq_comm] using h⟩
  · cases h

/-- The expansion is the same whatever the port and the latch hold: operands come from the instruction. -/
theorem script_withPort (i : Instr) (s : State) (b : Bool) (l : Fields) (td : List Action) (ins : List HostInput) :
    script i { s with busy := b, latch := l, todo := td, inputs := ins } = script i s := by
  cases i <;> rfl

/-- Every operation but INIT, SETROT and COLOR565 is a list of events and nothing else (R10). -/
theorem script_eq_emits (i : Instr) (s : State) (h1 : i ≠ .init) (h2 : ∀ r, i ≠ .setrot r)
    (h3 : ∀ r g b, i ≠ .color565 r g b) : ∃ es, script i s = emits es := by
  cases i with
  | init => exact absurd rfl h1
  | setrot r => exact absurd rfl (h2 r)
  | color565 r g b => exact absurd rfl (h3 r g b)
  | _ => exact ⟨_, rfl⟩

/-- Where the port has nothing to accept, a step settles. -/
theorem step_of_settled {s t : State} (h : s.poll = .settled t) : step s = .next t := by simp [step, h]

/-- Where the port accepts a descriptor, a step runs its operation and completes it. -/
theorem step_of_accepted {s t : State} {i : Instr} (h : s.poll = .accepted t) (hd : decodeFields t.latch = .ok i) :
    step s = completing (exec i t) := by simp [step, h, hd]

/-- A busy block finishes its operation, unless a hardware reset is asserted (R23, R26). -/
theorem step_of_busy {s : State} (hb : s.busy = true) (hr : s.inputs.head? ≠ some .hardwareReset) :
    step s = .next s.finish := by
  apply step_of_settled
  unfold State.poll
  split <;> simp_all

/-- Every way a step can answer a next state. -/
theorem step_next {s t : State} (h : step s = .next t) :
    (∃ rest, s.inputs = .hardwareReset :: rest ∧ t = { s with inputs := rest }.hardwareReset) ∨
    (s.busy = true ∧ s.inputs.head? ≠ some .hardwareReset ∧ t = s.finish) ∨
    (s.busy = false ∧ s.inputs = [] ∧ t = s) ∨
    (s.busy = false ∧ ∃ rest, s.inputs = .idle :: rest ∧ t = { s with inputs := rest }) ∨
    (s.busy = false ∧ ∃ d rest i, s.inputs = .present d :: rest ∧ decode d = .ok i ∧ acceptedIn i s.mode = true ∧
      t = (({ s with inputs := rest }.accept d).perform (script i s)).complete) := by
  by_cases hr : s.inputs.head? = some .hardwareReset
  · obtain ⟨rest, hin⟩ : ∃ rest, s.inputs = .hardwareReset :: rest := by
      cases hin : s.inputs with
      | nil => simp [hin] at hr
      | cons a rest => exact ⟨rest, by simpa [hin] using hr⟩
    rw [step_of_settled (t := { s with inputs := rest }.hardwareReset) (by simp [State.poll, hin])] at h
    exact .inl ⟨rest, hin, by simpa [eq_comm] using h⟩
  · by_cases hb : s.busy = true
    · rw [step_of_busy hb hr] at h
      exact .inr (.inl ⟨hb, hr, by simpa [eq_comm] using h⟩)
    · have hb' : s.busy = false := by simpa using hb
      refine .inr (.inr ?_)
      unfold step State.poll at h
      match hin : s.inputs with
      | [] => rw [hin] at h; simp [hb'] at h; exact .inl ⟨hb', rfl, h.symm⟩
      | .idle :: rest =>
        rw [hin] at h
        simp only [hb', Bool.false_eq_true, ↓reduceIte, Host.Outcome.next.injEq] at h
        exact .inr (.inl ⟨hb', rest, rfl, by rw [← h, hb']⟩)
      | .hardwareReset :: rest => simp [hin] at hr
      | .present d :: rest =>
        rw [hin] at h
        simp only [hb', Bool.false_eq_true, ↓reduceIte, accept_latch] at h
        refine .inr (.inr ⟨hb', d, rest, ?_⟩)
        split at h
        · rename_i i hi
          rw [exec_eq_script] at h
          split at h
          · rename_i hacc
            refine ⟨i, rfl, hi, hacc, ?_⟩
            simp only [completing, Host.Outcome.next.injEq] at h
            rw [← h]
            congr 2
          · simp [completing] at h
        · cases h

end Sys2Proof.Laws
end

