-- ==== Sys2Proof/Laws/Event.lean ====
section
/-! SUPPORT. Runs of the event-level step with nothing on the port. -/

namespace Sys2Proof.Laws

open Sys2Proof.Machine

/-- After `k` event-level steps a busy block has performed the first `k` lines of what it had to do (R11). -/
theorem eventRun_perform (as : List Action) (s : State) (hb : s.busy = true) (ht : s.todo = as) : ∀ k, k ≤ as.length →
    eventRun k s = { s.perform (as.take k) with todo := as.drop k } := by
  induction as generalizing s with
  | nil => intro k hk; simp at hk; subst hk; cases s; simp only at ht; subst ht; rfl
  | cons a as ih =>
    intro k hk
    cases k with
    | zero => simp [eventRun, ← ht]
    | succ k =>
      have ha : ({ s with todo := as } : State).act a
          = { s.act a with busy := s.busy, latch := s.latch, todo := as, inputs := s.inputs } := by cases a <;> rfl
      have hadv : s.advance = { s.act a with busy := s.busy, latch := s.latch, todo := as, inputs := s.inputs } := by
        simp only [State.advance, ht, ha]
      have h := ih s.advance (by rw [hadv]; exact hb) (by rw [hadv]) k (by simpa using hk)
      simp only [eventRun, hb, ↓reduceIte, h]
      rw [hadv, perform_withPort]
      simp

theorem eventRun_succ (n : Nat) (s : State) :
    eventRun (n + 1) s = if (eventRun n s).busy then (eventRun n s).advance else eventRun n s := by
  induction n generalizing s with
  | zero => rfl
  | succ n ih => rw [eventRun, ih]; rfl

/-- One step more and the operation is complete (R23). -/
theorem eventRun_done (as : List Action) (s : State) (hb : s.busy = true) (ht : s.todo = as) :
    eventRun (as.length + 1) s = (s.perform as).complete := by
  have h := eventRun_perform as s hb ht as.length (Nat.le_refl _)
  rw [eventRun_succ, h]
  simp [hb, State.advance, State.complete]

end Sys2Proof.Laws
end

