-- ==== Sys2Proof/Laws/Line.lean ====
section
/-! SUPPORT. The loop of LINE: what one iteration does to the row, and what the calls of the rest of the loop cover. -/

namespace Sys2Proof.Laws

open Sys2Proof.Machine

theorem clampNeg_eq_max (v : Int) : clampNeg v = max v 0 := by
  unfold clampNeg
  split <;> omega

theorem absVal_eq (a : Int) : absVal a = max a (-a) := by
  unfold absVal
  split <;> omega

/-- A position on the major axis and one on the minor axis as screen coordinates `(x, y)` (R124). -/
def placePoint (g : LineSetup) (a b : Int) : Int × Int := if g.steep then (b, a) else (a, b)

/-- The points of a set-up, one for each position from its start to its end. -/
def setupPoints (g : LineSetup) : List (Int × Int) :=
  (List.range (g.dx + 1).toNat).map
    (fun k : Nat => placePoint g (g.x0 + (k : Int)) (g.y0 + g.ystep * rowsAdvanced g.dx g.dy k))

/-- The points of a run, in its own axes. -/
theorem callPoints_runCall (g : LineSetup) (a b n : Int) :
    callPoints (runCall g a b n) = (List.range n.toNat).map (fun i : Nat => placePoint g (a + (i : Int)) b) := by
  cases h : g.steep <;> simp [runCall, callPoints, placePoint, h]

theorem callPoints_dotCall (g : LineSetup) (a b : Int) : callPoints (dotCall g a b) = [placePoint g a b] := by
  cases h : g.steep <;> simp [dotCall, callPoints, placePoint, h]

/-- `rowsAdvanced` by its defining inequalities. -/
theorem rowsAdvanced_bounds {dx : Int} (hdx : 0 < dx) (dy : Int) (k : Nat) :
    0 ≤ dx / 2 - k * dy + rowsAdvanced dx dy k * dx ∧ dx / 2 - k * dy + rowsAdvanced dx dy k * dx < dx := by
  have h1 := Int.ediv_mul_le (k * dy + dx - 1 - dx / 2) (Int.ne_of_gt hdx)
  have h2 := Int.lt_ediv_add_one_mul_self (k * dy + dx - 1 - dx / 2) hdx
  rw [Int.add_mul] at h2
  unfold rowsAdvanced
  constructor <;> omega

/-- The row is the only number that keeps the accumulator between 0 and `dx`. -/
theorem rowsAdvanced_unique {dx dy m : Int} (hdx : 0 < dx) {k : Nat} (h1 : 0 ≤ dx / 2 - k * dy + m * dx)
    (h2 : dx / 2 - k * dy + m * dx < dx) : rowsAdvanced dx dy k = m := by
  obtain ⟨h3, h4⟩ := rowsAdvanced_bounds hdx dy k
  generalize rowsAdvanced dx dy k = r at h3 h4
  have ha : (r - m) * dx < 1 * dx := by rw [Int.sub_mul]; omega
  have hb : (m - r) * dx < 1 * dx := by rw [Int.sub_mul]; omega
  have ha' := Int.lt_of_mul_lt_mul_right ha (Int.le_of_lt hdx)
  have hb' := Int.lt_of_mul_lt_mul_right hb (Int.le_of_lt hdx)
  omega

theorem rowsAdvanced_zero {dx : Int} (hdx : 0 < dx) (dy : Int) : rowsAdvanced dx dy 0 = 0 :=
  rowsAdvanced_unique hdx (by simp; omega) (by simp; omega)

/-- After `dx` positions the row has moved from one endpoint to the other. -/
theorem rowsAdvanced_end {dx : Int} (hdx : 0 < dx) (dy : Int) : rowsAdvanced dx dy dx.toNat = dy := by
  have h : (dx.toNat : Int) = dx := Int.toNat_of_nonneg (by omega)
  apply rowsAdvanced_unique hdx <;> rw [h, Int.mul_comm dx dy] <;> omega

/-- One iteration advances the row exactly when the accumulator goes negative (R125). -/
theorem rowsAdvanced_succ {dx dy : Int} (hdx : 0 < dx) (h0 : 0 ≤ dy) (h1 : dy ≤ dx) (k : Nat) :
    rowsAdvanced dx dy (k + 1) =
      if dx / 2 - k * dy + rowsAdvanced dx dy k * dx - dy < 0 then rowsAdvanced dx dy k + 1
      else rowsAdvanced dx dy k := by
  obtain ⟨h3, h4⟩ := rowsAdvanced_bounds hdx dy k
  split <;> apply rowsAdvanced_unique hdx <;> push_cast <;> simp only [Int.add_mul, Int.one_mul] <;> omega

theorem rowsAdvanced_mono {dx dy : Int} (hdx : 0 < dx) (h0 : 0 ≤ dy) (h1 : dy ≤ dx) {j k : Nat} (h : j ≤ k) :
    rowsAdvanced dx dy j ≤ rowsAdvanced dx dy k := by
  induction h with
  | refl => exact Int.le_refl _
  | step _ ih => rw [Nat.succ_eq_add_one, rowsAdvanced_succ hdx h0 h1]; split <;> omega

/-- The point of the `k`-th position. -/
def pointAt (g : LineSetup) (k : Nat) : Int × Int :=
  placePoint g (g.x0 + (k : Int)) (g.y0 + g.ystep * rowsAdvanced g.dx g.dy k)

/-- What the loop's variables hold when it is about to visit position `k`, with the positions from `b` on not yet
emitted: they all lie on the current row. -/
structure LoopAt (g : LineSetup) (k b : Nat) (v : LineVars) : Prop where
  pending : b ≤ k
  start : v.xb = g.x0 + (b : Int)
  row : v.y = g.y0 + g.ystep * rowsAdvanced g.dx g.dy k
  acc : v.err = g.dx / 2 - k * g.dy + rowsAdvanced g.dx g.dy k * g.dx
  flat : ∀ j, b ≤ j → j ≤ k → rowsAdvanced g.dx g.dy j = rowsAdvanced g.dx g.dy k

/-- A set-up as S4 leaves it (R124). -/
structure SetupOk (g : LineSetup) : Prop where
  dxPos : 0 < g.dx
  dyNonneg : 0 ≤ g.dy
  dyLe : g.dy ≤ g.dx
  far : g.x1 = g.x0 + g.dx

theorem loopAt_start {g : LineSetup} (hg : SetupOk g) : LoopAt g 0 0 (lineStart g) where
  pending := Nat.le_refl 0
  start := by simp [lineStart]
  row := by simp [lineStart, rowsAdvanced_zero hg.dxPos]
  acc := by simp [lineStart, rowsAdvanced_zero hg.dxPos]
  flat := by intro j _ h; simp [Nat.le_zero.mp h]

/-- An iteration that does not advance the row leaves the run pending and calls nothing. -/
theorem lineStep_stays {g : LineSetup} (hg : SetupOk g) {k b : Nat} {v : LineVars} (h : LoopAt g k b v)
    (he : ¬v.err - g.dy < 0) :
    (lineStep g (g.x0 + (k : Int)) v).1 = [] ∧ LoopAt g (k + 1) b (lineStep g (g.x0 + (k : Int)) v).2 ∧
      rowsAdvanced g.dx g.dy (k + 1) = rowsAdvanced g.dx g.dy k := by
  have hr : rowsAdvanced g.dx g.dy (k + 1) = rowsAdvanced g.dx g.dy k := by
    rw [rowsAdvanced_succ hg.dxPos hg.dyNonneg hg.dyLe, ← h.acc, if_neg he]
  refine ⟨by simp [lineStep, he], ?_, hr⟩
  simp only [lineStep, he, ↓reduceIte]
  refine ⟨by have := h.pending; omega, h.start, by rw [hr]; exact h.row, ?_, ?_⟩
  · simp only [hr, h.acc]; push_cast; rw [Int.add_mul]; omega
  · intro j h1 h2
    rw [hr]
    by_cases h3 : j ≤ k
    · exact h.flat j h1 h3
    · rw [show j = k + 1 by omega, hr]

/-- An iteration that advances the row makes one call, for the run from `b` to `k`, and leaves nothing pending. -/
theorem lineStep_emits {g : LineSetup} (hg : SetupOk g) {k b : Nat} {v : LineVars} (h : LoopAt g k b v)
    (he : v.err - g.dy < 0) :
    (∃ call, (lineStep g (g.x0 + (k : Int)) v).1 = [call] ∧
      (call = dotCall g (g.x0 + (k : Int)) v.y ∨ ∃ n, 1 ≤ n ∧ call = runCall g v.xb v.y n) ∧
      callPoints call = (List.range' b (k + 1 - b)).map (pointAt g)) ∧
    LoopAt g (k + 1) (k + 1) (lineStep g (g.x0 + (k : Int)) v).2 ∧
    rowsAdvanced g.dx g.dy (k + 1) = rowsAdvanced g.dx g.dy k + 1 := by
  have hr : rowsAdvanced g.dx g.dy (k + 1) = rowsAdvanced g.dx g.dy k + 1 := by
    rw [rowsAdvanced_succ hg.dxPos hg.dyNonneg hg.dyLe, ← h.acc, if_pos he]
  have hb := h.pending
  refine ⟨⟨_, by simp only [lineStep, he, ↓reduceIte]; rfl, ?_, ?_⟩, ?_, hr⟩
  · split
    · exact .inr ⟨_, by rw [h.start]; omega, rfl⟩
    · exact .inl rfl
  · split
    · rw [callPoints_runCall, List.range'_eq_map_range, List.map_map, h.start,
        show (g.x0 + (k : Int) - (g.x0 + (b : Int)) + 1).toNat = k + 1 - b by omega]
      apply List.map_congr_left
      intro i hi
      rw [List.mem_range] at hi
      simp only [Function.comp, pointAt]
      rw [h.flat (b + i) (by omega) (by omega), ← h.row]
      push_cast
      rw [Int.add_assoc]
    · rename_i hne
      rw [h.start] at hne
      rw [callPoints_dotCall, show b = k by omega, show k + 1 - k = 1 by omega]
      simp [pointAt, h.row]
  · simp only [lineStep, he, ↓reduceIte]
    refine ⟨Nat.le_refl _, by push_cast; rw [Int.add_assoc], ?_, ?_, ?_⟩
    · simp only [hr, h.row]; rw [Int.mul_add, Int.mul_one]; omega
    · simp only [hr, h.acc]; push_cast; rw [Int.add_mul, Int.add_mul]; omega
    · intro j h1 h2; rw [show j = k + 1 by omega]

theorem lineLoop_zero (g : LineSetup) (x : Int) (v : LineVars) : lineLoop g 0 x v = ([], v) := rfl

theorem lineLoop_succ (g : LineSetup) (n : Nat) (x : Int) (v : LineVars) :
    lineLoop g (n + 1) x v = ((lineStep g x v).1 ++ (lineLoop g n (x + 1) (lineStep g x v).2).1,
      (lineLoop g n (x + 1) (lineStep g x v).2).2) := rfl

theorem lineFlush_some {g : LineSetup} {v : LineVars} (h : g.x1 + 1 - v.xb ≥ 1) :
    lineFlush g v = [runCall g v.xb v.y (g.x1 + 1 - v.xb)] := if_pos h

theorem lineFlush_none {g : LineSetup} {v : LineVars} (h : ¬g.x1 + 1 - v.xb ≥ 1) : lineFlush g v = [] := if_neg h

/-- The rest of the loop and the flush cover the positions from the first one not yet emitted to the last (R125,
R126). -/
theorem lineLoop_covers {g : LineSetup} (hg : SetupOk g) (n : Nat) : ∀ {k b : Nat} {v : LineVars},
    ((k + n : Nat) : Int) = g.dx + 1 → LoopAt g k b v →
    ((lineLoop g n (g.x0 + (k : Int)) v).1 ++ lineFlush g (lineLoop g n (g.x0 + (k : Int)) v).2).flatMap callPoints
      = (List.range' b (k + n - b)).map (pointAt g) := by
  induction n with
  | zero =>
    intro k b v hk h
    have hb := h.pending
    have hfar := hg.far
    rw [lineLoop_zero, List.nil_append]
    by_cases ht : g.x1 + 1 - v.xb ≥ 1
    · rw [lineFlush_some ht]
      simp only [List.flatMap_cons, List.flatMap_nil, List.append_nil]
      rw [callPoints_runCall, List.range'_eq_map_range, List.map_map, h.start,
        show (g.x1 + 1 - (g.x0 + (b : Int))).toNat = k + 0 - b by omega]
      apply List.map_congr_left
      intro i hi
      rw [List.mem_range] at hi
      simp only [Function.comp, pointAt]
      rw [h.flat (b + i) (by omega) (by omega), ← h.row]
      push_cast
      rw [Int.add_assoc]
    · rw [lineFlush_none ht]
      rw [h.start] at ht
      rw [show k + 0 - b = 0 by omega]
      rfl
  | succ n ih =>
    intro k b v hk h
    have hb := h.pending
    have hpos : g.x0 + (k : Int) + 1 = g.x0 + ((k + 1 : Nat) : Int) := by push_cast; rw [Int.add_assoc]
    simp only [lineLoop_succ, hpos]
    by_cases he : v.err - g.dy < 0
    · obtain ⟨⟨call, hc, _, hp⟩, hl, _⟩ := lineStep_emits hg h he
      have := ih (by omega) hl
      rw [List.append_assoc, List.flatMap_append, this, hc, List.flatMap_cons, List.flatMap_nil, List.append_nil, hp,
        ← List.map_append]
      congr 1
      have := List.range'_append_1 (s := b) (m := k + 1 - b) (n := k + 1 + n - (k + 1))
      rw [show b + (k + 1 - b) = k + 1 by omega] at this
      rw [this]
      congr 1
      omega
    · obtain ⟨hc, hl, _⟩ := lineStep_stays hg h he
      have := ih (by omega) hl
      rw [hc, List.nil_append, this]
      congr 2
      omega

/-- The rest of the loop and the flush make one call a row. -/
theorem lineLoop_count {g : LineSetup} (hg : SetupOk g) (n : Nat) : ∀ {k b : Nat} {v : LineVars},
    ((k + n : Nat) : Int) = g.dx + 1 → LoopAt g k b v →
    (((lineLoop g n (g.x0 + (k : Int)) v).1 ++ lineFlush g (lineLoop g n (g.x0 + (k : Int)) v).2).length : Int)
      = if (b : Int) ≤ g.dx then g.dy - rowsAdvanced g.dx g.dy b + 1 else 0 := by
  induction n with
  | zero =>
    intro k b v hk h
    have hb := h.pending
    have hfar := hg.far
    have hdx := hg.dxPos
    rw [lineLoop_zero, List.nil_append]
    by_cases ht : g.x1 + 1 - v.xb ≥ 1
    · rw [lineFlush_some ht]
      rw [h.start] at ht
      have h1 := h.flat b (Nat.le_refl _) hb
      have h2 := h.flat g.dx.toNat (by omega) (by omega)
      rw [rowsAdvanced_end hg.dxPos] at h2
      rw [if_pos (by omega), h1, ← h2]
      simp
    · rw [lineFlush_none ht]
      rw [h.start] at ht
      rw [if_neg (by omega)]
      rfl
  | succ n ih =>
    intro k b v hk h
    have hb := h.pending
    have hpos : g.x0 + (k : Int) + 1 = g.x0 + ((k + 1 : Nat) : Int) := by push_cast; rw [Int.add_assoc]
    simp only [lineLoop_succ, hpos]
    by_cases he : v.err - g.dy < 0
    · obtain ⟨⟨call, hc, _, _⟩, hl, hr⟩ := lineStep_emits hg h he
      have := ih (by omega) hl
      rw [List.append_assoc, List.length_append, hc]
      push_cast at this ⊢
      rw [this, if_pos (show (b : Int) ≤ g.dx by omega), h.flat b (Nat.le_refl _) hb]
      split
      · simp [hr]; omega
      · have hend := rowsAdvanced_end hg.dxPos g.dy
        rw [show g.dx.toNat = k by omega] at hend
        simp [hend]
    · obtain ⟨hc, hl, _⟩ := lineStep_stays hg h he
      rw [hc, List.nil_append]
      exact ih (by omega) hl

/-- Every call of the rest of the loop and the flush is a dot or a run of at least one pixel. -/
theorem lineLoop_calls {g : LineSetup} (hg : SetupOk g) (n : Nat) : ∀ {k b : Nat} {v : LineVars},
    LoopAt g k b v →
    ∀ call ∈ (lineLoop g n (g.x0 + (k : Int)) v).1 ++ lineFlush g (lineLoop g n (g.x0 + (k : Int)) v).2,
      (∃ a c, call = dotCall g a c) ∨ ∃ a c m, 1 ≤ m ∧ call = runCall g a c m := by
  induction n with
  | zero =>
    intro k b v h call hmem
    rw [lineLoop_zero, List.nil_append] at hmem
    by_cases ht : g.x1 + 1 - v.xb ≥ 1
    · rw [lineFlush_some ht, List.mem_singleton] at hmem
      exact .inr ⟨_, _, _, ht, hmem⟩
    · rw [lineFlush_none ht] at hmem
      cases hmem
  | succ n ih =>
    intro k b v h call hmem
    have hpos : g.x0 + (k : Int) + 1 = g.x0 + ((k + 1 : Nat) : Int) := by push_cast; rw [Int.add_assoc]
    simp only [lineLoop_succ, hpos, List.append_assoc, List.mem_append] at hmem
    by_cases he : v.err - g.dy < 0
    · obtain ⟨⟨c, hc, hform, _⟩, hl, _⟩ := lineStep_emits hg h he
      rcases hmem with hmem | hmem
      · rw [hc, List.mem_singleton] at hmem
        subst hmem
        rcases hform with hform | ⟨m, hm, hform⟩
        · exact .inl ⟨_, _, hform⟩
        · exact .inr ⟨_, _, _, hm, hform⟩
      · exact ih hl call (List.mem_append.mpr hmem)
    · obtain ⟨hc, hl, _⟩ := lineStep_stays hg h he
      rcases hmem with hmem | hmem
      · rw [hc] at hmem; cases hmem
      · exact ih hl call (List.mem_append.mpr hmem)

/-- S4 on two different endpoints gives a set-up in order (R124). -/
theorem lineSetup_ok {x0 y0 x1 y1 : Int} (hne : x0 ≠ x1 ∨ y0 ≠ y1) : SetupOk (lineSetup x0 y0 x1 y1) := by
  unfold lineSetup orderedSetup
  simp only [absVal_eq]
  split <;> split <;> constructor <;> simp only [] <;> omega

theorem lineGeneral_eq (g : LineSetup) :
    lineGeneral g = (lineLoop g (g.dx + 1).toNat (g.x0 + ((0 : Nat) : Int)) (lineStart g)).1
      ++ lineFlush g (lineLoop g (g.dx + 1).toNat (g.x0 + ((0 : Nat) : Int)) (lineStart g)).2 := by simp [lineGeneral]

/-- The calls of a general line cover its points, in order. -/
theorem lineGeneral_covers {g : LineSetup} (hg : SetupOk g) : (lineGeneral g).flatMap callPoints = setupPoints g := by
  have hd := hg.dxPos
  rw [lineGeneral_eq, lineLoop_covers hg (g.dx + 1).toNat (k := 0) (b := 0) (by omega) (loopAt_start hg)]
  simp only [setupPoints, List.range_eq_range', Nat.sub_zero, Nat.zero_add]
  rfl

/-- A general line makes one call a row. -/
theorem lineGeneral_count {g : LineSetup} (hg : SetupOk g) : ((lineGeneral g).length : Int) = g.dy + 1 := by
  have hd := hg.dxPos
  have h := lineLoop_count hg (g.dx + 1).toNat (k := 0) (b := 0) (by omega) (loopAt_start hg)
  rw [← lineGeneral_eq, if_pos (by simp; omega), rowsAdvanced_zero hd] at h
  omega

/-- Every call of a general line is a dot or a run of at least one pixel. -/
theorem lineGeneral_calls {g : LineSetup} (hg : SetupOk g) : ∀ call ∈ lineGeneral g,
    (∃ a c, call = dotCall g a c) ∨ ∃ a c m, 1 ≤ m ∧ call = runCall g a c m := by
  rw [lineGeneral_eq]
  exact lineLoop_calls hg _ (loopAt_start hg)

theorem lineSetup_dy (x0 y0 x1 y1 : Int) :
    (lineSetup x0 y0 x1 y1).dy = min (x1 - x0).natAbs (y1 - y0).natAbs := by
  unfold lineSetup orderedSetup
  simp only [absVal_eq]
  split <;> split <;> simp only [] <;> omega

/-- With no height the row never moves. -/
theorem rowsAdvanced_flat {dx : Int} (h : 0 ≤ dx) (k : Nat) : rowsAdvanced dx 0 k = 0 := by
  rcases Int.lt_or_eq_of_le h with h | h
  · exact rowsAdvanced_unique h (by simp; omega) (by simp; omega)
  · subst h; simp [rowsAdvanced]

/-- A set-up that starts at `(a, b)` on its own axes and ends at `(a', b')` has the points between the two. -/
theorem setupPoints_eq {g : LineSetup} {a b a' b' : Int} (h0 : g.x0 = a) (h1 : g.y0 = b) (hdx : g.dx = a' - a)
    (hdy : g.dy = (b' - b).natAbs) (hs : g.ystep * g.dy = b' - b) (hpos : a ≤ a') :
    setupPoints g = (risingPoints a b a' b').map (fun p => placePoint g p.1 p.2) := by
  have key : ∀ k : Nat, g.ystep * rowsAdvanced g.dx g.dy k = (b' - b).sign * rowsAdvanced g.dx g.dy k := by
    intro k
    by_cases hz : b' - b = 0
    · have hd : g.dy = 0 := by rw [hdy, hz]; rfl
      rw [hd, rowsAdvanced_flat (by omega)]
      simp
    · congr 1
      have hn : g.dy ≠ 0 := by omega
      have hsig : (b' - b).sign * g.dy = b' - b := by rw [hdy]; exact Int.sign_mul_natAbs _
      exact Int.eq_of_mul_eq_mul_right hn (hs.trans hsig.symm)
  simp only [setupPoints, risingPoints, List.map_map, h0, h1, ← hdx, ← hdy]
  apply List.map_congr_left
  intro k _
  simp only [Function.comp, key]

theorem orderedSetup_points (steep : Bool) (a b a' b' : Int) :
    setupPoints (orderedSetup steep a b a' b')
      = (if a ≤ a' then risingPoints a b a' b' else risingPoints a' b' a b).map
          (if steep then Prod.swap else id) := by
  have hplace : ∀ g : LineSetup, g.steep = steep →
      (fun p : Int × Int => placePoint g p.1 p.2) = if steep then Prod.swap else id := by
    intro g hg
    cases steep <;> funext p <;> simp [placePoint, hg, Prod.swap]
  have hsign : ∀ d : Int, signVal d * absVal d = d := by
    intro d
    unfold signVal absVal
    split <;> omega
  have habs : ∀ d : Int, absVal d = d.natAbs := by
    intro d
    rw [absVal_eq]
    omega
  unfold orderedSetup
  by_cases h : a > a'
  · rw [if_pos h, if_neg (show ¬a ≤ a' by omega)]
    rw [setupPoints_eq (a := a') (b := b') (a' := a) (b' := b) rfl rfl rfl (habs _) (hsign _) (by omega),
      hplace _ rfl]
  · rw [if_neg h, if_pos (show a ≤ a' by omega)]
    rw [setupPoints_eq (a := a) (b := b) (a' := a') (b' := b') rfl rfl rfl (habs _) (hsign _) (by omega),
      hplace _ rfl]

/-- S4 keeps the line: the points of its set-up are those between the two endpoints (R124). -/
theorem lineSetup_points (x0 y0 x1 y1 : Int) : setupPoints (lineSetup x0 y0 x1 y1) = linePoints x0 y0 x1 y1 := by
  unfold lineSetup linePoints
  simp only [absVal_eq]
  by_cases h : (y1 - y0).natAbs > (x1 - x0).natAbs
  · rw [if_pos (by omega), if_pos h, orderedSetup_points]; rfl
  · rw [if_neg (by omega), if_neg h, orderedSetup_points]; simp

/-- A line between two points starts at the one with the smaller major coordinate and ends at the other. -/
theorem risingPoints_ends {a b a' b' : Int} (h : a ≤ a') (hm : (b' - b).natAbs ≤ a' - a) :
    (risingPoints a b a' b').head? = some (a, b) ∧ (risingPoints a b a' b').getLast? = some (a', b') := by
  obtain ⟨n, hn⟩ := Int.eq_ofNat_of_zero_le (show 0 ≤ a' - a by omega)
  have hlen : (a' - a + 1).toNat = n + 1 := by omega
  have hrow : ∀ k : Nat, (k = 0 → (b' - b).sign * rowsAdvanced (a' - a) (b' - b).natAbs k = 0) ∧
      (k = n → (b' - b).sign * rowsAdvanced (a' - a) (b' - b).natAbs k = b' - b) := by
    intro k
    by_cases hz : a' - a = 0
    · have hb : b' - b = 0 := by omega
      simp [hb]
    · have hp : 0 < a' - a := by omega
      refine ⟨fun hk => by rw [hk, rowsAdvanced_zero hp, Int.mul_zero], fun hk => ?_⟩
      have he := rowsAdvanced_end hp ((b' - b).natAbs : Int)
      rw [show (a' - a).toNat = k by omega] at he
      rw [he]
      exact Int.sign_mul_natAbs _
  constructor
  · simp only [risingPoints, hlen, List.range_succ_eq_map, List.map_cons, List.head?_cons]
    rw [(hrow 0).1 rfl]
    simp
  · simp only [risingPoints, hlen, List.range_succ, List.map_append, List.map_cons, List.map_nil, List.getLast?_concat]
    rw [(hrow n).2 rfl, show a + (n : Int) = a' by omega, show b + (b' - b) = b' by omega]

end Sys2Proof.Laws
end

