-- ==== Sys2Proof/Laws/PerInstr.lean ====
section
/-! SUPPORT. Facts about every operation as syntax, one lemma a constructor. -/

namespace Sys2Proof.Laws

/-- The opcode of a descriptor is the operation's row in the opcode map (R51, R52). -/
def EncodeOpcode.Statement (i : Instr) : Prop := (splitDescriptor (encode i)).opc = i.opcode

theorem encode_fields (i : Instr) : splitDescriptor (encode i) = i.fields := split_join _

theorem EncodeOpcode.init : EncodeOpcode.Statement .init := by
  simp [EncodeOpcode.Statement, encode_fields, Instr.fields]

theorem EncodeOpcode.wrcmd (byte : Byte) : EncodeOpcode.Statement (.wrcmd byte) := by
  simp [EncodeOpcode.Statement, encode_fields, Instr.fields]

theorem EncodeOpcode.wrdat8 (byte : Byte) : EncodeOpcode.Statement (.wrdat8 byte) := by
  simp [EncodeOpcode.Statement, encode_fields, Instr.fields]

theorem EncodeOpcode.wrdat16 (word : Word) : EncodeOpcode.Statement (.wrdat16 word) := by
  simp [EncodeOpcode.Statement, encode_fields, Instr.fields]

theorem EncodeOpcode.setwin (x0 y0 x1 y1 : Word) : EncodeOpcode.Statement (.setwin x0 y0 x1 y1) := by
  simp [EncodeOpcode.Statement, encode_fields, Instr.fields]

theorem EncodeOpcode.setrot (r : Byte) : EncodeOpcode.Statement (.setrot r) := by
  simp [EncodeOpcode.Statement, encode_fields, Instr.fields]

theorem EncodeOpcode.invert (on : Bool) : EncodeOpcode.Statement (.invert on) := by
  simp [EncodeOpcode.Statement, encode_fields, Instr.fields]

theorem EncodeOpcode.pixel (x y : Int) (color : Word) : EncodeOpcode.Statement (.pixel x y color) := by
  simp [EncodeOpcode.Statement, encode_fields, Instr.fields]

theorem EncodeOpcode.vline (x y h : Int) (color : Word) : EncodeOpcode.Statement (.vline x y h color) := by
  simp [EncodeOpcode.Statement, encode_fields, Instr.fields]

theorem EncodeOpcode.hline (x y w : Int) (color : Word) : EncodeOpcode.Statement (.hline x y w color) := by
  simp [EncodeOpcode.Statement, encode_fields, Instr.fields]

theorem EncodeOpcode.fillrect (x y w h : Int) (color : Word) :
    EncodeOpcode.Statement (.fillrect x y w h color) := by
  simp [EncodeOpcode.Statement, encode_fields, Instr.fields]

theorem EncodeOpcode.fillscr (color : Word) : EncodeOpcode.Statement (.fillscr color) := by
  simp [EncodeOpcode.Statement, encode_fields, Instr.fields]

theorem EncodeOpcode.line (x0 y0 x1 y1 : Int) (color : Word) :
    EncodeOpcode.Statement (.line x0 y0 x1 y1 color) := by
  simp [EncodeOpcode.Statement, encode_fields, Instr.fields]

theorem EncodeOpcode.color565 (r g b : Byte) : EncodeOpcode.Statement (.color565 r g b) := by
  simp [EncodeOpcode.Statement, encode_fields, Instr.fields]

end Sys2Proof.Laws
end

