-- ==== Sys2Proof/Laws/Script.lean ====
section
/-! SUPPORT. The expansions of the operations: INIT's performed, and the shape of every other one. -/

namespace Sys2Proof.Laws

open Sys2Proof.Machine

/-- Taking the rotation mod 4 leaves P_ROT_INIT alone. -/
theorem mod4_of_fin (q : Fin 4) : mod4 (BitVec.ofNat 8 q.val) = q := by
  apply Fin.ext
  have := q.isLt
  simp [mod4]

/-- INIT performed (R80): ten set-up events and delays, eight framed writes, three state writes. -/
theorem perform_init (s : State) : s.perform (script .init s) = { s with
    mode := .ready
    rot := Config.params.rotInit
    width := (dims Config.params Config.params.rotInit).1
    height := (dims Config.params Config.params.rotInit).2
    pins := { rs := .cmd, cs := .active, rd := .idle, wr := .active, rst := .inactive, d := hi8 s.pins.d ++ (0x29 : Byte) }
    trace := s.trace ++ ([.pinWrite (.cs .active), .pinWrite (.rs .data), .pinWrite (.rd .idle), .pinWrite (.wr .idle),
        .pinWrite (.rst .inactive), .delay 5, .pinWrite (.rst .active), .delay 20, .pinWrite (.rst .inactive), .delay 150]
      ++ eventsOf [.cmd 0x3A, .data8 Config.params.pixfmt16, .cmd 0x36,
        .data8 (madctl Config.params Config.params.rotInit), .cmd 0x51, .data8 Config.params.bright, .cmd 0x11,
        .cmd 0x29]) } := by
  simp only [script, scriptInit, initSequence, setRotation, perform_append, perform_emits, writeCommand_eq,
    writeData8_eq, mod4_of_fin, afterAll_append, afterAll_eventsOf, settleAll_cons, settleAll_nil, Transaction.settle,
    hi8_append]
  simp [setPin, delayMs, Pins.write, cmdPixelFormat, cmdMemoryAccessControl, cmdBrightness, cmdSleepOut, cmdDisplayOn,
    eventsOf, Transaction.events, State.act]

/-- What an operation other than INIT is made of: framed writes, and then, in SETROT, the new geometry, in COLOR565,
which has no framed write, the result, in any other nothing. -/
def Shaped (i : Instr) (as : List Action) : Prop :=
  ∃ ts : List Transaction, ∃ tail : List Action, as = emits (eventsOf ts) ++ tail ∧
    ((tail = [] ∧ (∀ r, i ≠ .setrot r) ∧ (∀ r g b, i ≠ .color565 r g b)) ∨
     (∃ q, tail = [.geometry q (dims Config.params q).1 (dims Config.params q).2] ∧ ∃ r, i = .setrot r) ∨
     (∃ v, tail = [.result v] ∧ ts = [] ∧ ∃ r g b, i = .color565 r g b))

theorem shaped_of_framed {i : Instr} {as : List Action} {es : List Event} (h : ∃ ts, es = eventsOf ts)
    (ha : as = emits es) (h1 : ∀ r, i ≠ .setrot r) (h2 : ∀ r g b, i ≠ .color565 r g b) : Shaped i as := by
  obtain ⟨ts, rfl⟩ := h
  exact ⟨ts, [], by rw [ha, List.append_nil], .inl ⟨rfl, h1, h2⟩⟩

/-- One line a family: every expansion but INIT's has that shape. -/
theorem script_shaped (i : Instr) (s : State) (hi : i ≠ .init) : Shaped i (script i s) := by
  cases i with
  | init => exact absurd rfl hi
  | setrot r =>
    exact ⟨[.cmd cmdMemoryAccessControl, .data8 (madctl Config.params (mod4 r))],
      [.geometry (mod4 r) (dims Config.params (mod4 r)).1 (dims Config.params (mod4 r)).2], rfl,
      .inr (.inl ⟨mod4 r, rfl, r, rfl⟩)⟩
  | color565 r g b => exact ⟨[], _, rfl, .inr (.inr ⟨_, rfl, rfl, r, g, b, rfl⟩)⟩
  | wrcmd b => exact shaped_of_framed ⟨_, writeCommand_eq b⟩ rfl (by simp) (by simp)
  | wrdat8 b => exact shaped_of_framed ⟨_, writeData8_eq b⟩ rfl (by simp) (by simp)
  | wrdat16 w => exact shaped_of_framed ⟨_, writeData16_eq w⟩ rfl (by simp) (by simp)
  | setwin x0 y0 x1 y1 => exact shaped_of_framed ⟨_, setAddrWindow_eq x0 y0 x1 y1⟩ rfl (by simp) (by simp)
  | invert on =>
    exact shaped_of_framed ⟨[.cmd (if on then cmdInversionOn else cmdInversionOff)], by cases on <;> rfl⟩ rfl
      (by simp) (by simp)
  | pixel x y c => exact shaped_of_framed (drawPixel_framed _ _ x y c) rfl (by simp) (by simp)
  | vline x y n c => exact shaped_of_framed (drawFastVLine_framed _ _ x y n c) rfl (by simp) (by simp)
  | hline x y n c => exact shaped_of_framed (drawFastHLine_framed _ _ x y n c) rfl (by simp) (by simp)
  | fillrect x y w h c => exact shaped_of_framed (fillRect_framed _ _ x y w h c) rfl (by simp) (by simp)
  | fillscr c => exact shaped_of_framed (fillRect_framed _ _ _ _ _ _ c) rfl (by simp) (by simp)
  | line x0 y0 x1 y1 c => exact shaped_of_framed (drawLine_framed _ _ x0 y0 x1 y1 c) rfl (by simp) (by simp)

end Sys2Proof.Laws
end

