-- ==== Sys2Proof/Tests/Slice0.lean ====
section
/-! SUPPORT. The model's own tests. Expected values are the spec's: the worked descriptors of 30_encoding.md and the
vectors of 95_test_vectors.md, named in each docstring. Then one witness a statement with hypotheses: concrete states and
operands that meet them, at the boundaries of each clause. -/

namespace Sys2Proof.Tests

open Sys2Proof.Machine

/-! ## Helpers -/

/-- The state of 95_test_vectors.md's "rot 0": after INIT with the default parameters. -/
def readyState : State := { State.reset with
  mode := .ready
  width := 240
  height := 320
  pins := { rs := .cmd, cs := .active, rd := .idle, wr := .active, rst := .inactive, d := 0x0029 } }

/-- A small frame, 3 wide and 2 tall. -/
def smallState : State := { readyState with width := 3, height := 2 }

/-- One step on the descriptor, written as the spec writes it. -/
def run (s : State) (d : Nat) : Host.Outcome State Fault Refusal := step (s.withFetchWord 88 d)

/-- The state afterwards, where there is one. -/
def after : Host.Outcome State Fault Refusal → Option State
  | .next s => some s
  | .fault _ => none
  | .refused _ => none

/-- The reason of a refusal. -/
def reason : Host.Outcome State Fault Refusal → Option Refusal
  | .next _ => none
  | .fault _ => none
  | .refused r => some r

/-- What the step latches, on a state whose trace is empty. -/
def sent (s : State) (d : Nat) : Option (List Transaction) := (after (run s d)).map (fun t => latchedFrom s.pins false t.trace)

/-- The same for an expansion performed. -/
def latchedBy (s : State) (as : List Action) : List Transaction := latchedFrom s.pins false (s.perform as).trace

/-- The coordinates of a window as eleven transactions, each byte written out. -/
def win (a b c d e f g h : Byte) : List Transaction :=
  [.cmd 0x2A, .data8 a, .data8 b, .data8 c, .data8 d, .cmd 0x2B, .data8 e, .data8 f, .data8 g, .data8 h, .cmd 0x2C]

/-! ## WellFormed refuses ill-formed terms -/

theorem test_wf_pixel : ¬(Instr.pixel 32768 0 0).WellFormed ∧ ¬(Instr.pixel 0 (-32769) 0).WellFormed := by decide
theorem test_wf_vline : ¬(Instr.vline (-32769) 0 1 0).WellFormed ∧ ¬(Instr.vline 0 32768 1 0).WellFormed ∧
    ¬(Instr.vline 0 0 32768 0).WellFormed := by decide
theorem test_wf_hline : ¬(Instr.hline 32768 0 1 0).WellFormed ∧ ¬(Instr.hline 0 (-32769) 1 0).WellFormed ∧
    ¬(Instr.hline 0 0 (-32769) 0).WellFormed := by decide
theorem test_wf_fillrect : ¬(Instr.fillrect 32768 0 1 1 0).WellFormed ∧ ¬(Instr.fillrect 0 32768 1 1 0).WellFormed ∧
    ¬(Instr.fillrect 0 0 (-32769) 1 0).WellFormed ∧ ¬(Instr.fillrect 0 0 1 65535 0).WellFormed := by decide
theorem test_wf_line : ¬(Instr.line (-32769) 0 1 1 0).WellFormed ∧ ¬(Instr.line 0 65535 1 1 0).WellFormed ∧
    ¬(Instr.line 0 0 32768 1 0).WellFormed ∧ ¬(Instr.line 0 0 1 (-40000) 0).WellFormed := by decide

/-! ## Decoding: words written out from R50, R52 and R54 -/

theorem test_decode_init : decodeTableWord 88 0x0100000000000000000000 = some .init := by decide
theorem test_decode_wrcmd : decodeTableWord 88 0x02FF2C123456789ABCDEF0 = some (.wrcmd 0x2C) := by decide
theorem test_decode_wrdat8 : decodeTableWord 88 0x0300A50000000000000000 = some (.wrdat8 0xA5) := by decide
theorem test_decode_wrdat16 : decodeTableWord 88 0x04ABCD0000000000000000 = some (.wrdat16 0xABCD) := by decide
theorem test_decode_setwin : decodeTableWord 88 0x05000A0014000B00150000 = some (.setwin 10 20 11 21) := by decide
theorem test_decode_setrot : decodeTableWord 88 0x0600050000000000000000 = some (.setrot 5) := by decide
theorem test_decode_invert : decodeTableWord 88 0x0700020000000000000000 = some (.invert false) := by decide
theorem test_decode_pixel : decodeTableWord 88 0x08000A001411112222F800 = some (.pixel 10 20 0xF800) := by decide
theorem test_decode_vline : decodeTableWord 88 0x090003013E00050000FFFF = some (.vline 3 318 5 0xFFFF) := by decide
theorem test_decode_hline : decodeTableWord 88 0x0A00000000FFFC0000FFFF = some (.hline 0 0 (-4) 0xFFFF) := by decide
theorem test_decode_fillrect : decodeTableWord 88 0x0B00EE013E000A00095555 = some (.fillrect 238 318 10 9 0x5555) := by
  decide
theorem test_decode_fillscr : decodeTableWord 88 0x0C0000000000000000FFFF = some (.fillscr 0xFFFF) := by decide
theorem test_decode_line : decodeTableWord 88 0x0D80007FFFFFFF0009F800 = some (.line (-32768) 32767 (-1) 9 0xF800) := by
  decide
theorem test_decode_color565 : decodeTableWord 88 0x0EAB12CD34EF5600000000 = some (.color565 0x12 0x34 0x56) := by decide
/-- 95_test_vectors.md M4. -/
theorem test_decode_reserved : decodeTableWord 88 0 = none ∧ decodeTableWord 88 0x0F00000000000000000000 = none ∧
    decodeTableWord 88 0xFFFFFFFFFFFFFFFFFFFFFF = none := by decide
/-- 20_memory.md R34: the descriptor's bytes, most significant first; another length is no descriptor. -/
theorem test_decode_bytes :
    (decodeBytes [0x08, 0x00, 0x0A, 0x00, 0x14, 0x00, 0x00, 0x00, 0x00, 0xF8, 0x00]).toOption = some (.pixel 10 20 0xF800) ∧
    (decodeBytes [0x08, 0x00, 0x0A]).toOption = none := by decide

/-! ## Operations, one step each -/

/-- 95_test_vectors.md section 2: the eight latched transactions, with the default parameters. -/
theorem test_init_latches : latchedBy State.reset (initSequence Params.sample) =
    [.cmd 0x3A, .data8 0x55, .cmd 0x36, .data8 0x48, .cmd 0x51, .data8 0xFF, .cmd 0x11, .cmd 0x29] := by decide
/-- Section 2: the delays in place, and the end state. -/
theorem test_init_state : (State.reset.perform (initSequence Params.sample)).trace.length = 42 ∧
    (State.reset.perform (initSequence Params.sample)).trace[5]? = some (.delay 5) ∧
    (State.reset.perform (initSequence Params.sample)).trace[9]? = some (.delay 150) ∧
    { State.reset.perform (initSequence Params.sample) with trace := [] } = readyState := by decide
/-- P1, P4: the upper lines hold through an 8-bit write. -/
theorem test_wrcmd : sent readyState 0x02002C0000000000000000 = some [.cmd 0x2C] ∧
    (after (run { readyState with pins := { readyState.pins with d := 0xABCD } } 0x02002C0000000000000000)).map
      (fun t => (t.pins.d, t.pins.rs, t.pins.wr)) = some (0xAB2C, .cmd, .active) := by decide
/-- P2. -/
theorem test_wrdat8 : (after (run readyState 0x0300A50000000000000000)).map (fun t => t.trace) =
    some [.pinWrite (.rs .data), .dataWrite (.bits8 0xA5), .pinWrite (.wr .idle), .pinWrite (.wr .active)] := by decide
/-- P3. -/
theorem test_wrdat16 : sent readyState 0x04ABCD0000000000000000 = some [.data16 0xABCD] ∧
    (after (run readyState 0x04ABCD0000000000000000)).map (fun t => t.pins.d) = some 0xABCD := by decide
/-- A1, A4: encoded as given. -/
theorem test_setwin : sent readyState 0x05000A0014000B00150000 = some (win 0x00 0x0A 0x00 0x0B 0x00 0x14 0x00 0x15) ∧
    sent readyState 0x05FFFF00001234ABCD0000 = some (win 0xFF 0xFF 0x12 0x34 0x00 0x00 0xAB 0xCD) := by decide
/-- S1: rotation 5 is rotation 1. -/
theorem test_setrot : latchedBy readyState (setRotation Params.sample 5) = [.cmd 0x36, .data8 0x28] ∧
    (readyState.perform (setRotation Params.sample 5)).rot = 1 ∧
    (readyState.perform (setRotation Params.sample 5)).width = 320 ∧
    (readyState.perform (setRotation Params.sample 5)).height = 240 := by decide
/-- 43_orientation.md R98: 0x21 on, 0x20 off; `on` is bit 0 alone. -/
theorem test_invert : sent readyState 0x0700010000000000000000 = some [.cmd 0x21] ∧
    sent readyState 0x0700020000000000000000 = some [.cmd 0x20] := by decide
/-- X2. -/
theorem test_pixel_corner : sent readyState 0x0800EF013F0000000007E0 =
    some (win 0x00 0xEF 0x00 0xEF 0x01 0x3F 0x01 0x3F ++ [.data16 0x07E0]) := by decide
/-- X3, X4, X5. -/
theorem test_pixel_outside : sent readyState 0x0800F0000000000000FFFF = some [] ∧
    sent readyState 0x08FFFF000000000000FFFF = some [] ∧ sent readyState 0x08000001400000000000FF = some [] := by decide
/-- L3. -/
theorem test_vline_clipped : sent readyState 0x090003013E00050000FFFF =
    some (win 0x00 0x03 0x00 0x03 0x01 0x3E 0x01 0x3F ++ [.data16 0xFFFF, .data16 0xFFFF]) := by decide
/-- L5, L8. -/
theorem test_vline_nothing : sent readyState 0x09000000000000000000FF = some [] ∧
    sent readyState 0x090000014000050000FFFF = some [] := by decide
/-- L1. -/
theorem test_hline_clipped : sent readyState 0x0A00EC0005000A0000001F =
    some (win 0x00 0xEC 0x00 0xEF 0x00 0x05 0x00 0x05 ++ List.replicate 4 (.data16 0x001F)) := by decide
/-- L2, L9: clipped to one pixel; nothing from a start outside. -/
theorem test_hline_one : sent readyState 0x0A00EF0005000A0000001F =
      some (win 0x00 0xEF 0x00 0xEF 0x00 0x05 0x00 0x05 ++ [.data16 0x001F]) ∧
    sent readyState 0x0AFFFF000000050000FFFF = some [] := by decide
/-- F2. -/
theorem test_fillrect_clipped : sent readyState 0x0B00EE013E000A000A5555 =
    some (win 0x00 0xEE 0x00 0xEF 0x01 0x3E 0x01 0x3F ++ List.replicate 4 (.data16 0x5555)) := by decide
/-- F3: one pixel where the width is 1. -/
theorem test_fillrect_one : sent readyState 0x0B0005000500010007AAAA =
    some (win 0x00 0x05 0x00 0x05 0x00 0x05 0x00 0x05 ++ [.data16 0xAAAA]) := by decide
/-- 45_fill.md R116 on a 3 × 2 frame: six words into the whole frame. -/
theorem test_fillscr : sent smallState 0x0C0000000000000000F81F =
    some (win 0x00 0x00 0x00 0x02 0x00 0x00 0x00 0x01 ++ List.replicate 6 (.data16 0xF81F)) := by decide
/-- B15: a run of two and the trailing pixel, a window each. -/
theorem test_line : sent readyState 0x0D000000000002000111AA =
    some (win 0x00 0x00 0x00 0x01 0x00 0x00 0x00 0x00 ++ [.data16 0x11AA, .data16 0x11AA] ++
      (win 0x00 0x02 0x00 0x02 0x00 0x01 0x00 0x01 ++ [.data16 0x11AA])) := by decide +kernel
/-- B7 (steep), B9 (downward diagonal), B13 (right to left), B16 (rejected), B19 (clamped). -/
theorem test_line_calls : lineCalls 240 320 0 0 2 5 = [.vline 0 0 2, .vline 1 2 2, .vline 2 4 2] ∧
    lineCalls 240 320 3 0 0 3 = [.pixel 0 3, .pixel 1 2, .pixel 2 1, .pixel 3 0] ∧
    lineCalls 240 320 10 10 4 12 = [.hline 4 12 2, .hline 6 11 3, .hline 9 10 2] ∧
    lineCalls 240 320 (-5) (-5) (-1) 9 = [] ∧
    lineCalls 240 320 (-4) (-2) 4 2 = [.hline 0 0 2, .hline 2 1 2, .hline 4 2 1] := by decide
/-- K8, K10. -/
theorem test_color565 : (after (run readyState 0x0E00120034005600000000)).map (fun t => t.res) = some 0x11AA ∧
    (after (run readyState 0x0E00F700FB00F700000000)).map (fun t => t.res) = some 0xF7DE := by decide
/-- M1: COLOR565 before INIT. -/
theorem test_color565_uninit : (after (run State.reset 0x0E00F80000000000000000)).map (fun t => (t.res, t.mode, t.trace)) =
    some (0xF800, .uninit, []) := by decide
/-- M2, M3. -/
theorem test_refused_uninit : reason (run State.reset 0x08000A001400000000F800) = some .notReady ∧
    reason (run State.reset 0x0C0000000000000000F800) = some .notReady := by decide
/-- M4. -/
theorem test_refused_reserved : reason (run readyState 0) = some (.reservedOpcode 0) ∧
    reason (run State.reset 0xFFFFFFFFFFFFFFFFFFFFFF) = some (.reservedOpcode 0xFF) := by decide
/-- M6: a busy block ignores what the host presents and finishes its own operation. -/
theorem test_busy_ignores_port : (after (step { readyState with
    busy := true, todo := [.emit (.pinWrite (.wr .idle))], inputs := [.present 0] })).map
      (fun t => (t.trace, t.busy, t.todo, t.inputs)) = some ([.pinWrite (.wr .idle)], false, [], [.present 0]) := by decide

/-- 10_state.md R26: a hardware reset abandons a running operation, and the trace ends where it had reached. -/
theorem test_reset_abandons_operation : (after (step { readyState with
    busy := true, todo := [.emit (.pinWrite (.wr .idle))], trace := [.pinWrite (.rs .data)],
    inputs := [.hardwareReset, .idle] })).map (fun t => (t.trace, t.busy, t.todo, t.mode, t.inputs)) =
      some ([.pinWrite (.rs .data)], false, [], .uninit, [.idle]) := by decide

/-! ## Witnesses: the hypotheses of the statements can be met -/

theorem witness_ready : readyState.mode = .ready ∧ readyState.busy = false ∧ readyState.width ≤ 32767 ∧
    readyState.height ≤ 32767 := by decide

/-- A hardware reset presented to a busy block and to one at rest. -/
theorem witness_HardwareResetAtAnyMoment :
    ({ readyState with busy := true, todo := [.ready], inputs := [.hardwareReset] } : State).inputs = .hardwareReset :: [] ∧
    ({ State.reset with inputs := [.hardwareReset, .idle] } : State).inputs = .hardwareReset :: [.idle] := by decide

theorem witness_StatusOutputsShowState : ({ readyState with width := 32767, height := 1 } : State).width ≤ 32767 ∧
    ({ readyState with width := 1, height := 32767 } : State).height ≤ 32767 := by decide

/-- Operands at both ends of `int16`. -/
theorem witness_DecodeOfEncodeIsIdentity : (Instr.line (-32768) 32767 32767 (-32768) 0xFFFF).WellFormed ∧
    (Instr.fillrect 32767 (-32768) (-32768) 32767 0).WellFormed ∧ (Instr.setwin 0xFFFF 0 0xFFFF 0).WellFormed := by decide

theorem witness_DecodedIsWellFormed : decode 0x0D80007FFF7FFF80000001 = .ok (.line (-32768) 32767 32767 (-32768) 1) := by
  rfl

/-- One pair of different descriptors for each clause. -/
theorem witness_UnassignedBitsAreIgnored :
    (⟨0x01, 1, 2, 3, 4, 5⟩ : Fields) ≠ ⟨0x01, 0, 0, 0, 0, 0⟩ ∧
    (0xFF2C : Word).extractLsb' 0 8 = (0x002C : Word).extractLsb' 0 8 ∧
    (⟨0x04, 7, 1, 1, 1, 1⟩ : Fields) ≠ ⟨0x04, 7, 0, 0, 0, 0⟩ ∧
    (⟨0x05, 1, 2, 3, 4, 9⟩ : Fields) ≠ ⟨0x05, 1, 2, 3, 4, 0⟩ ∧
    (0xFFFE : Word).getLsbD 0 = (0x0000 : Word).getLsbD 0 ∧
    (⟨0x08, 1, 2, 9, 9, 3⟩ : Fields) ≠ ⟨0x08, 1, 2, 0, 0, 3⟩ ∧
    (⟨0x0A, 1, 2, 3, 9, 4⟩ : Fields) ≠ ⟨0x0A, 1, 2, 3, 0, 4⟩ ∧
    (⟨0x0C, 9, 9, 9, 9, 1⟩ : Fields) ≠ ⟨0x0C, 0, 0, 0, 0, 1⟩ ∧
    (0xAB12 : Word).extractLsb' 0 8 = (0x0012 : Word).extractLsb' 0 8 := by decide

theorem witness_ReservedOpcodesAreRefused :
    (0x00FFFFFFFFFFFFFFFFFFFF : Descriptor).extractLsb' 80 8 = 0 ∧
    0x0F ≤ ((0x0F00000000000000000000 : Descriptor).extractLsb' 80 8).toNat ∧
    0x0F ≤ ((0xFF00000000000000000000 : Descriptor).extractLsb' 80 8).toNat ∧
    readyState.busy = false ∧ State.reset.busy = false := by decide

/-- A block at rest, in either mode, with a descriptor presented that decodes. -/
theorem witness_StepRunsPresentedOperation :
    ({ readyState with inputs := [.present 0x0A00000000FFFC0000FFFF] } : State).busy = false ∧
    (decode 0x0A00000000FFFC0000FFFF).toOption = some (.hline 0 0 (-4) 0xFFFF) := by decide

theorem witness_IdleBlockHoldsState : State.reset.busy = false ∧ State.reset.inputs = [] ∧
    ({ readyState with inputs := [.idle] } : State).inputs = .idle :: [] := by decide

/-- A busy block with nothing on the port, and one to which a descriptor is presented. -/
theorem witness_BusyBlockIgnoresPort : ({ readyState with busy := true, todo := [.ready] } : State).busy = true ∧
    ({ readyState with busy := true, todo := [.ready] } : State).inputs.head? ≠ some .hardwareReset ∧
    ([.present 0x0100000000000000000000, .hardwareReset] : List HostInput).head? ≠ some .hardwareReset := by decide

theorem witness_ReadyBlockRunsEveryOperation :
    ({ readyState with inputs := [.present 0x0100000000000000000000] } : State).mode = .ready ∧
    (decode 0x0100000000000000000000).toOption = some .init := by decide

/-- Before INIT: an operation refused, INIT, COLOR565. -/
theorem witness_UninitAcceptsOnlyInitAndColor : State.reset.mode = .uninit ∧ Instr.wrcmd 0 ≠ .init ∧
    (decode 0x02002C0000000000000000).toOption = some (.wrcmd 0x2C) ∧
    (decode 0x0100000000000000000000).toOption = some .init ∧
    (decode 0x0E00F80000000000000000).toOption = some (.color565 0xF8 0 0) := by decide

/-- The whole frame, and a single pixel at its last corner. -/
theorem witness_WindowStreamReachesEachPixelOnce : (⟨0, 0, 239, 319⟩ : Window).Valid 240 320 ∧
    (⟨239, 319, 239, 319⟩ : Window).Valid 240 320 := by decide

/-- 95_test_vectors.md program 4. -/
theorem witness_HostBuiltStreamIsBurst : readyState.mode = .ready ∧
    (⟨⟨10, 20, 11, 21⟩, [0x1111, 0x2222, 0x3333, 0x4444]⟩ : Burst).Ok readyState.width readyState.height := by decide

/-- All four rotations complete. -/
theorem witness_RotationIsTakenMod4 : ∃ t0 t1 t2 t3, exec (.setrot 0) readyState = .next t0 ∧
    exec (.setrot 1) readyState = .next t1 ∧ exec (.setrot 2) readyState = .next t2 ∧
    exec (.setrot 3) readyState = .next t3 := ⟨_, _, _, _, rfl, rfl, rfl, rfl⟩

theorem witness_InitLatchesEightTransactions : ∃ t u, exec .init State.reset = .next t ∧ exec .init readyState = .next u :=
  ⟨_, _, rfl, rfl⟩

theorem witness_CleanEntryAfterFirstInit : decode 0x0100000000000000000000 = .ok .init ∧
    decode 0x01FFFFFFFFFFFFFFFFFFFF = .ok .init := ⟨rfl, rfl⟩

theorem witness_InitBecomesReadyLast : ∃ t, State.reset.busy = false ∧ decode 0x0100000000000000000000 = .ok .init ∧
    eventStep (.present 0x0100000000000000000000) State.reset = .next t := ⟨_, rfl, rfl, rfl⟩

/-- Inside at both corners; outside on each side. -/
theorem witness_PixelDrawsOnePixelOrNothing : (0 : Int) < readyState.width ∧ (0 : Int) < readyState.height ∧
    (239 : Int) < readyState.width ∧ (319 : Int) < readyState.height ∧ (240 : Int) ≥ readyState.width ∧
    (320 : Int) ≥ readyState.height ∧ (-1 : Int) < 0 := by decide

/-- Fast lines: a run cut at the edge from the last row or column, length 1, length 0. -/
theorem witness_FastLines :
    ((0 : Int) ≤ 239 ∧ (239 : Int) < readyState.width ∧ (0 : Int) ≤ 319 ∧ (319 : Int) < readyState.height ∧
      (1 : Int) ≤ 32767) ∧ (1 : Int) ≤ 1 ∧ (0 : Int) < 1 ∧ min (5 : Int) (readyState.height - 318) = 2 := by decide

/-- FILLRECT: the smallest true rectangle, a side of 1, a side clipped to 1, a side of 0. -/
theorem witness_FillrectFillsClippedRectangle :
    (2 ≤ min (2 : Int) (readyState.width - 238) ∧ 2 ≤ min (2 : Int) (readyState.height - 318)) ∧
    min (1 : Int) (readyState.width - 5) = 1 ∧ min (7 : Int) (readyState.width - 239) = 1 ∧ (0 : Int) < 1 := by decide

/-- FILLSCR: a frame of at least two pixels each way, and one a single pixel wide. -/
theorem witness_FillscrFillsWholeFrame : 1 < smallState.width ∧ 1 < smallState.height ∧
    (1 ≤ ({ smallState with width := 1 } : State).width ∧ ({ smallState with width := 1 } : State).mode = .ready) := by decide

/-- Lines rejected, one for each side. -/
theorem witness_LineOffOneSideDrawsNothing : LineRejected readyState.width readyState.height (-1) 0 (-5) 9 ∧
    LineRejected readyState.width readyState.height 0 (-1) 5 (-1) ∧
    LineRejected readyState.width readyState.height 240 0 250 5 ∧
    LineRejected readyState.width readyState.height 0 320 9 321 := by decide

/-- B19 and B23: lines with negative coordinates that are not rejected. -/
theorem witness_LineClampsNegativeCoordinates : 1 ≤ readyState.width ∧ 1 ≤ readyState.height ∧
    (Instr.line (-4) (-2) 4 2 0).WellFormed ∧ ¬LineRejected readyState.width readyState.height (-4) (-2) 4 2 ∧
    (Instr.line (-32768) (-32768) 32767 32767 0).WellFormed ∧
    ¬LineRejected readyState.width readyState.height (-32768) (-32768) 32767 32767 := by decide

/-- A horizontal line, a vertical one, a single point, each at the last column or row. -/
theorem witness_DegenerateLineIsFastLine :
    ¬LineRejected readyState.width readyState.height 239 0 500 0 ∧
    ¬LineRejected readyState.width readyState.height 239 319 239 0 ∧ (319 : Int) ≠ 0 ∧
    ¬LineRejected readyState.width readyState.height 239 319 239 319 := by decide

/-- A line that is not rejected, with endpoints off the frame, whose operation completes. -/
theorem witness_LineWritesBresenhamPixelsInFrame : (∃ t, exec (.line (-4) (-2) 400 500 0xF800) readyState = .next t) ∧
    ¬LineRejected readyState.width readyState.height (-4) (-2) 400 500 ∧ 1 ≤ readyState.width ∧
    readyState.width ≤ 32767 ∧ 1 ≤ readyState.height ∧ readyState.height ≤ 32767 :=
  ⟨⟨_, rfl⟩, by decide, by decide, by decide, by decide, by decide⟩

/-- The geometry of a line: B19, clamped and running forward; B7's reverse, steep and running backward; a diagonal, which is
not steep. -/
theorem witness_LineGeometry : ¬LineRejected 240 320 (-4) (-2) 4 2 ∧ max (-4 : Int) 0 = 0 ∧ max (4 : Int) 0 = 4 ∧
    RunsForward 0 0 4 2 ∧ ¬LineRejected 240 320 2 5 0 0 ∧ ¬RunsForward 2 5 0 0 ∧ RunsForward 0 3 3 0 := by decide

/-- B7, B6 and B9: the pixels in the order drawn, from the spec's table. -/
theorem test_linePoints : linePoints 0 0 2 5 = [(0, 0), (0, 1), (1, 2), (1, 3), (2, 4), (2, 5)] ∧
    linePoints 5 2 0 0 = [(0, 0), (1, 0), (2, 1), (3, 1), (4, 2), (5, 2)] ∧
    linePoints 3 0 0 3 = [(0, 3), (1, 2), (2, 1), (3, 0)] := by decide

/-- One set of fields for each opcode. -/
theorem witness_DecodeReadsOperandsFromFields :
    (⟨0x05, 1, 2, 3, 4, 5⟩ : Fields).opc = 0x05 ∧ (⟨0x09, 1, 2, 3, 4, 5⟩ : Fields).opc = 0x09 ∧
    (decodeFields ⟨0x0D, 0x8000, 0x7FFF, 0xFFFF, 1, 5⟩).toOption = some (.line (-32768) 32767 (-1) 1 5) ∧
    (decodeFields ⟨0x0B, 1, 2, 0xFFFF, 4, 5⟩).toOption = some (.fillrect 1 2 (-1) 4 5) := by decide

/-- Two lines that meet the hypotheses of the call counts: a general one and a diagonal one. -/
theorem witness_LineCallCounts : ¬LineRejected 240 320 0 0 239 319 ∧ (0 : Int) ≠ 239 ∧ (0 : Int) ≠ 319 ∧
    ¬LineRejected 240 320 0 3 3 0 ∧ (3 : Int) - 0 = max (0 - 3) (3 - 0) ∧ (0 : Int) < 3 := by decide

/-- Every operation answers a next state on a ready block: the hypothesis of the frames and whole-machine rules. -/
theorem witness_OperationsComplete : ∃ a b c d e f g h, exec .init readyState = .next a ∧
    exec (.wrcmd 1) readyState = .next b ∧ exec (.wrdat16 1) readyState = .next c ∧
    exec (.setwin 1 2 3 4) readyState = .next d ∧ exec (.setrot 7) readyState = .next e ∧
    exec (.pixel 239 319 5) readyState = .next f ∧ exec (.line 0 0 5 2 9) readyState = .next g ∧
    exec (.color565 1 2 3) State.reset = .next h :=
  ⟨_, _, _, _, _, _, _, _, rfl, rfl, rfl, rfl, rfl, rfl, rfl, rfl⟩

/-- MODE changes: an INIT accepted before any other, and a hardware reset of a ready block. -/
theorem witness_ModeChangesOnlyByInitAndReset :
    (after (step { State.reset with inputs := [.present 0x0100000000000000000000] })).map (fun t => t.mode) = some .ready ∧
    (after (step { readyState with inputs := [.hardwareReset] })).map (fun t => t.mode) = some .uninit := by
  exact ⟨rfl, rfl⟩

/-- A drawing operation within R10's dimensions that completes. -/
theorem witness_DrawingKeepsWindowContract : Safety.isDrawing (.hline 236 5 10 0x1F) = true ∧
    ∃ t, exec (.hline 236 5 10 0x1F) readyState = .next t := ⟨rfl, _, rfl⟩

/-- The invariant holds of reset with INIT presented, and the step from there answers a next state. -/
theorem witness_StepKeepsBlockSound_first : ∃ s t, s.mode = .uninit ∧ Safety.Inv s ∧ step s = .next t :=
  ⟨{ State.reset with inputs := [.present 0x0100000000000000000000] }, _, rfl,
    ⟨⟨rfl, rfl⟩, by decide, by decide, nofun, nofun, nofun, fun _ => rfl⟩, rfl⟩

/-- It holds of a ready block too, whatever the parameters are. -/
theorem witness_StepKeepsBlockSound_ready : ∃ s t, s.mode = .ready ∧ Safety.Inv s ∧ step s = .next t := by
  refine ⟨{ readyState with
      width := Config.params.physW, height := Config.params.physH, inputs := [.present 0x08000A001400000000F800] },
    _, rfl, ⟨⟨rfl, rfl⟩, ?_, ?_, fun _ => rfl, fun _ => ⟨rfl, rfl, rfl⟩, fun _ => rfl, nofun⟩, rfl⟩
  · have h := Config.params.physWPred.isLt
    simp only [Params.physW]
    omega
  · have h := Config.params.physHPred.isLt
    simp only [Params.physH]
    omega

/-- Event by event, a presented descriptor is accepted in one state and refused in another. -/
theorem witness_EventLevelRefinesCallLevel : (∃ t, eventStep (.present 0x0700010000000000000000) readyState = .next t) ∧
    eventStep (.present 0x0700010000000000000000) State.reset = .refused .notReady ∧
    eventStep (.present 0) readyState = .refused (.reservedOpcode 0) := ⟨⟨_, rfl⟩, rfl, rfl⟩

end Sys2Proof.Tests
end

/-! What the expansion of each operation does to the state, said once for each of the four forms an expansion has. The
settled statements about state, port and control lines are built on this layer. -/

namespace Sys2Proof.Proofs

open Sys2Proof.Machine
open Sys2Proof.Laws

/-! ## The four forms of an expansion -/

/-- Framed writes move RS, WR and the data lines and lengthen the trace; nothing else (R73). -/
theorem perform_framed (s : State) (ts : List Transaction) :
    s.perform (emits (eventsOf ts))
      = { s with pins := settleAll s.pins ts, trace := s.trace ++ eventsOf ts } := by
  rw [perform_emits, afterAll_eventsOf]

/-- What SETROT puts on the wire (R95). -/
def setrotTransactions (r : Byte) : List Transaction := [.cmd 0x36, .data8 (madctl Config.params (mod4 r))]

/-- SETROT performed: two framed writes, then the new geometry (R95). -/
theorem perform_setrot (r : Byte) (s u : State) : s.perform (script (.setrot r) u) = { s with
    rot := mod4 r
    width := (dims Config.params (mod4 r)).1
    height := (dims Config.params (mod4 r)).2
    pins := settleAll s.pins (setrotTransactions r)
    trace := s.trace ++ eventsOf (setrotTransactions r) } := by
  have h : script (.setrot r) u = emits (eventsOf (setrotTransactions r))
      ++ [.geometry (mod4 r) (dims Config.params (mod4 r)).1 (dims Config.params (mod4 r)).2] := rfl
  rw [h, perform_append, perform_framed]
  rfl

/-- COLOR565 performed: the result and nothing else (R135). -/
theorem perform_color565 (r g b : Byte) (s u : State) :
    s.perform (script (.color565 r g b) u) = { s with res := color565 r g b } := rfl

/-- None of the three operations that write more of the block than its pins and trace (R10). -/
structure Framed (i : Instr) : Prop where
  notInit : i ≠ .init
  notSetrot : ∀ r, i ≠ .setrot r
  notColor565 : ∀ r g b, i ≠ .color565 r g b

/-- Every operation is INIT, SETROT, COLOR565, or a sequence of framed writes. -/
theorem script_cases (i : Instr) (s : State) :
    i = .init ∨ (∃ r, i = .setrot r) ∨ (∃ r g b, i = .color565 r g b) ∨
      (Framed i ∧ ∃ ts, script i s = emits (eventsOf ts)) := by
  by_cases hi : i = .init
  · exact .inl hi
  obtain ⟨ts, tail, hs, ⟨rfl, hrot, hcol⟩ | ⟨_, _, hrot⟩ | ⟨_, _, _, hcol⟩⟩ := script_shaped i s hi
  · exact .inr (.inr (.inr ⟨⟨hi, hrot, hcol⟩, ts, by rw [hs, List.append_nil]⟩))
  · exact .inr (.inl hrot)
  · exact .inr (.inr (.inl hcol))

/-- Only INIT and COLOR565 are accepted in `UNINIT` (R156). -/
theorem accepted_cases {i : Instr} {m : Mode} (h : acceptedIn i m = true) :
    m = .ready ∨ i = .init ∨ ∃ r g b, i = .color565 r g b := by
  cases m with
  | ready => exact .inl rfl
  | uninit =>
    right
    cases i with
    | init => exact .inl rfl
    | color565 r g b => exact .inr ⟨r, g, b, rfl⟩
    | _ => simp [acceptedIn, acceptedUninit] at h

/-- INIT ends in `READY` (R80). -/
theorem perform_init_mode (s u : State) : (s.perform (script .init u)).mode = .ready :=
  congrArg State.mode (perform_init s)

/-- No operation but INIT writes MODE (R14). -/
theorem perform_script_mode {i : Instr} (hi : i ≠ .init) (s u : State) :
    (s.perform (script i u)).mode = s.mode := by
  obtain h | ⟨r, rfl⟩ | ⟨r, g, b, rfl⟩ | ⟨_, ts, hts⟩ := script_cases i u
  · exact absurd h hi
  · rw [perform_setrot]
  · rw [perform_color565]
  · rw [hts, perform_framed]

/-- Every operation but INIT adds the events of framed writes (R73). -/
theorem perform_script_trace {i : Instr} (hi : i ≠ .init) (s : State) :
    ∃ ts, (s.perform (script i s)).trace = s.trace ++ eventsOf ts := by
  obtain h | ⟨r, rfl⟩ | ⟨r, g, b, rfl⟩ | ⟨_, ts, hts⟩ := script_cases i s
  · exact absurd h hi
  · exact ⟨_, by rw [perform_setrot]⟩
  · exact ⟨[], by rw [perform_color565]; exact (List.append_nil _).symm⟩
  · exact ⟨ts, by rw [hts, perform_framed]⟩

/-- No expansion reads ROT or RES (R15, R17). -/
theorem script_withRotRes (i : Instr) (s : State) (q : Fin 4) (v : Word) :
    script i { s with rot := q, res := v } = script i s := by
  cases i <;> rfl

/-! ## The control lines -/

/-- Once WR is at active, framed writes leave it there (R21 (a)). -/
theorem settleAll_wr_active {p : Pins} (h : p.wr = .active) (ts : List Transaction) :
    (settleAll p ts).wr = .active := by
  induction ts generalizing p with
  | nil => exact h
  | cons t ts ih => exact ih (by cases t <;> rfl)

/-- No event of a framed write drives CS, RD or RST (R73). -/
theorem eventsOf_drives_no_control {ts : List Transaction} {e : Event} (h : e ∈ eventsOf ts) :
    (∀ l, e ≠ .pinWrite (.cs l)) ∧ (∀ l, e ≠ .pinWrite (.rd l)) ∧ (∀ l, e ≠ .pinWrite (.rst l)) := by
  obtain ⟨t, -, ht⟩ := List.mem_flatMap.mp h
  cases t <;>
    (simp only [Transaction.events, List.mem_cons, List.not_mem_nil, or_false] at ht
     obtain rfl | rfl | rfl | rfl := ht <;> simp)

/-! ## The port: one lemma for each thing a sample can be, for the call-level and the event-level step. -/

/-- A hardware reset is obeyed whatever the block is doing (R26). -/
theorem step_hardwareReset {s : State} {rest : List HostInput} (h : s.inputs = .hardwareReset :: rest) :
    step s = .next { s with inputs := rest }.hardwareReset :=
  step_of_settled (by rw [State.poll, h])

/-- At rest, a presented descriptor is accepted (R23). -/
theorem poll_present {s : State} {d : Descriptor} {rest : List HostInput} (hb : s.busy = false)
    (h : s.inputs = .present d :: rest) : s.poll = .accepted ({ s with inputs := rest }.accept d) := by
  simp only [State.poll, h, hb, Bool.false_eq_true, ↓reduceIte]

/-- A presented descriptor that decodes is run and completed (R12, R23). -/
theorem step_present_ok {s : State} {d : Descriptor} {rest : List HostInput} {i : Instr} (hb : s.busy = false)
    (h : s.inputs = .present d :: rest) (hd : decode d = .ok i) :
    step s = completing (exec i ({ s with inputs := rest }.accept d)) :=
  step_of_accepted (poll_present hb h) hd

/-- A presented descriptor that does not decode is refused by its opcode (R55). -/
theorem step_present_error {s : State} {d : Descriptor} {rest : List HostInput} {err : DecodeError}
    (hb : s.busy = false) (h : s.inputs = .present d :: rest) (hd : decode d = .error err) :
    step s = .refused (.reservedOpcode (splitDescriptor d).opc) := by
  rw [decode] at hd
  simp only [step, poll_present hb h, accept_latch, hd]

/-- A busy block goes on with its operation, unless a hardware reset is asserted (R23, R26). -/
theorem eventStep_of_busy {s : State} {input : HostInput} (hb : s.busy = true) (hr : input ≠ .hardwareReset) :
    eventStep input s = .next s.advance := by
  cases input with
  | hardwareReset => exact absurd rfl hr
  | idle | present d => simp only [eventStep, hb, ↓reduceIte]

/-- The event-level step on a descriptor that decodes (R23, R156). -/
theorem eventStep_present_ok {s : State} {d : Descriptor} {i : Instr} (hb : s.busy = false)
    (hd : decode d = .ok i) :
    eventStep (.present d) s =
      if acceptedIn i s.mode then .next { s.accept d with todo := script i (s.accept d) } else .refused .notReady := by
  rw [decode] at hd
  simp only [eventStep, hb, Bool.false_eq_true, ↓reduceIte, accept_latch, hd]

/-- The event-level step on a descriptor that does not decode (R55). -/
theorem eventStep_present_error {s : State} {d : Descriptor} {err : DecodeError} (hb : s.busy = false)
    (hd : decode d = .error err) :
    eventStep (.present d) s = .refused (.reservedOpcode (splitDescriptor d).opc) := by
  rw [decode] at hd
  simp only [eventStep, hb, Bool.false_eq_true, ↓reduceIte, accept_latch, hd]

/-- Performing an expansion and completing it forgets BUSY and what was queued, and carries the latch and the inputs
along (R12, R23). -/
theorem complete_perform_withPort (s : State) (as : List Action) (b : Bool) (l : Fields) (td : List Action)
    (ins : List HostInput) :
    ({ s with busy := b, latch := l, todo := td, inputs := ins }.perform as).complete
      = { (s.perform as).complete with latch := l, inputs := ins } := by
  rw [perform_withPort]
  rfl

/-- The same for a descriptor just accepted (R23). -/
theorem accept_perform_complete (s : State) (d : Descriptor) (rest : List HostInput) (as : List Action) :
    (({ s with inputs := rest }.accept d).perform as).complete
      = { (s.perform as).complete with latch := splitDescriptor d, inputs := rest } :=
  complete_perform_withPort s as true _ s.todo rest

/-- The end of a running operation does not depend on what the host shows (R23). -/
theorem finish_withInputs (s : State) (ins : List HostInput) :
    { s with inputs := ins }.finish = { s.finish with inputs := ins } := by
  have h := complete_perform_withPort s s.todo s.busy s.latch s.todo ins
  simpa [State.finish] using h

@[simp] theorem finish_busy (s : State) : s.finish.busy = false := rfl
@[simp] theorem finish_latch (s : State) : s.finish.latch = s.latch := by simp [State.finish]
@[simp] theorem finish_inputs (s : State) : s.finish.inputs = s.inputs := by simp [State.finish]

@[simp] theorem advance_latch (s : State) : s.advance.latch = s.latch := by
  unfold State.advance
  split
  · rfl
  · rw [act_latch]

/-- After one event-level step a line a busy block is still busy (R23). -/
theorem eventRun_todo_busy {s : State} (hb : s.busy = true) : (eventRun s.todo.length s).busy = true := by
  rw [eventRun_perform s.todo s hb rfl _ (Nat.le_refl _)]
  exact (perform_busy ..).trans hb

/-- One event-level step more, and the running operation has come to its end (R23). -/
theorem eventRun_todo_finish {s : State} (hb : s.busy = true) : eventRun (s.todo.length + 1) s = s.finish :=
  eventRun_done s.todo s hb rfl

/-- Performing the next line of a running operation changes nothing of its end (R11). -/
theorem finish_advance (s : State) : s.advance.finish = s.finish := by
  unfold State.advance
  split
  next ht => simp [State.finish, ht, State.complete]
  next a rest ht =>
    have ha : { s with todo := rest }.act a
        = { s.act a with busy := s.busy, latch := s.latch, todo := rest, inputs := s.inputs } := by cases a <;> rfl
    rw [ha, State.finish, complete_perform_withPort, State.finish, ht, perform_cons]
    simp [State.complete]

/-! ## The invariant of the block at rest: each operation keeps it, so each step does. -/

/-- Both dimensions of a rotation lie in 1..32767, for every value of the parameters (00_scope.md R6, R16). -/
theorem dims_range (p : Params) (q : Fin 4) :
    (1 ≤ (dims p q).1 ∧ (dims p q).1 ≤ 32767) ∧ (1 ≤ (dims p q).2 ∧ (dims p q).2 ≤ 32767) := by
  have hw := p.physWPred.isLt
  have hh := p.physHPred.isLt
  unfold dims Params.physW Params.physH
  split <;> simp only [] <;> omega

/-- The state after reset is sound (R25). -/
theorem inv_reset : Safety.Inv State.reset where
  atRest := ⟨rfl, rfl⟩
  widthRange := by decide
  heightRange := by decide
  readyDims := nofun
  readyLines := nofun
  readyWr := nofun
  uninitPins := fun _ => rfl

/-- The invariant does not speak of RES, the latch, the trace or the inputs. -/
theorem inv_withRest {s : State} (h : Safety.Inv s) (v : Word) (l : Fields) (tr : List Event) (ins : List HostInput) :
    Safety.Inv { s with res := v, latch := l, trace := tr, inputs := ins } :=
  ⟨h.atRest, h.widthRange, h.heightRange, h.readyDims, h.readyLines, h.readyWr, h.uninitPins⟩

theorem inv_complete {s : State} (h : Safety.Inv s) : Safety.Inv s.complete :=
  ⟨⟨rfl, rfl⟩, h.widthRange, h.heightRange, h.readyDims, h.readyLines, h.readyWr, h.uninitPins⟩

theorem inv_hardwareReset (s : State) : Safety.Inv s.hardwareReset :=
  inv_withRest inv_reset 0 State.reset.latch s.trace s.inputs

/-- A completed block in `READY` is sound when its dimensions are those of its rotation and CS, RD, RST and WR are at
their levels: the range follows from the dimensions. -/
theorem inv_complete_of_ready {t : State} (hm : t.mode = .ready)
    (hd : (t.width, t.height) = dims Config.params t.rot)
    (hl : t.pins.cs = .active ∧ t.pins.rd = .idle ∧ t.pins.rst = .inactive) (hw : t.pins.wr = .active) :
    Safety.Inv t.complete := by
  have hr := dims_range Config.params t.rot
  rw [← hd] at hr
  refine ⟨⟨rfl, rfl⟩, hr.1, hr.2, fun _ => hd, fun _ => hl, fun _ => hw, fun hu => ?_⟩
  rw [complete_mode, hm] at hu
  cases hu

/-- In a sound `READY` block framed writes leave the control lines and WR at their levels (R20, R21). -/
theorem framed_keeps_lines {s : State} (h : Safety.Inv s) (hm : s.mode = .ready) (ts : List Transaction) :
    ((settleAll s.pins ts).cs = .active ∧ (settleAll s.pins ts).rd = .idle ∧
      (settleAll s.pins ts).rst = .inactive) ∧
      (settleAll s.pins ts).wr = .active := by
  obtain ⟨hcs, hrd, hrst⟩ := settleAll_keeps s.pins ts
  rw [hcs, hrd, hrst]
  exact ⟨h.readyLines hm, settleAll_wr_active (h.readyWr hm) ts⟩

/-- Every accepted operation, performed and completed, keeps the block sound. -/
theorem perform_script_keeps_inv {s : State} (h : Safety.Inv s) {i : Instr} (hacc : acceptedIn i s.mode = true) :
    Safety.Inv (s.perform (script i s)).complete := by
  obtain rfl | ⟨r, rfl⟩ | ⟨r, g, b, rfl⟩ | ⟨hf, ts, hts⟩ := script_cases i s
  · rw [perform_init]
    exact inv_complete_of_ready rfl rfl ⟨rfl, rfl, rfl⟩ rfl
  · have hm : s.mode = .ready := by simpa [acceptedIn, acceptedUninit] using hacc
    rw [perform_setrot]
    have hl := framed_keeps_lines h hm (setrotTransactions r)
    exact inv_complete_of_ready hm rfl hl.1 hl.2
  · exact inv_complete (inv_withRest h (color565 r g b) s.latch s.trace s.inputs)
  · have hm : s.mode = .ready := by
      obtain hm | hi | ⟨r, g, b, hi⟩ := accepted_cases hacc
      · exact hm
      · exact absurd hi hf.notInit
      · exact absurd hi (hf.notColor565 r g b)
    rw [hts, perform_framed]
    have hl := framed_keeps_lines h hm ts
    exact inv_complete_of_ready hm (h.readyDims hm) hl.1 hl.2

/-- Settles O53, along the five ways a step can answer a next state. -/
theorem stepKeepsBlockSound : Obligations.StepKeepsBlockSound := by
  intro s t h hstep
  obtain ⟨rest, -, rfl⟩ | ⟨hb, -, -⟩ | ⟨-, -, rfl⟩ | ⟨-, rest, -, rfl⟩ |
    ⟨-, d, rest, i, -, -, hacc, rfl⟩ := step_next hstep
  case inl => exact inv_hardwareReset _
  case inr.inl => rw [h.atRest.1] at hb; cases hb
  case inr.inr.inl => exact h
  case inr.inr.inr.inl => exact inv_withRest h s.res s.latch s.trace rest
  case inr.inr.inr.inr =>
    rw [accept_perform_complete]
    exact inv_withRest (perform_script_keeps_inv h hacc) _ (splitDescriptor d) _ rest

/-- Settles O52: each clause at the values of reset. -/
theorem resetStateIsSound : Obligations.ResetStateIsSound := inv_reset

/-! ## Reset and status -/

/-- Settles O1: each value as `State.reset` has it. -/
theorem resetGivesSpecifiedValues : Obligations.ResetGivesSpecifiedValues :=
  ⟨rfl, rfl, rfl, rfl, rfl, rfl, rfl, rfl, rfl⟩

/-- Settles O2: both levels go to `hardwareReset`, whatever was running. -/
theorem hardwareResetAtAnyMoment : Obligations.HardwareResetAtAnyMoment := by
  constructor
  · intro s rest h
    exact ⟨_, step_hardwareReset h, rfl, rfl, rfl, rfl, rfl, rfl⟩
  · intro s
    exact ⟨s.hardwareReset, rfl, rfl, rfl, rfl, rfl, rfl⟩

/-- Settles O3: each output is wide enough for its value. -/
theorem statusOutputsShowState : Obligations.StatusOutputsShowState := by
  intro s hw hh
  refine ⟨?_, ?_, ?_, ?_, ?_, rfl⟩
  · cases h : s.busy <;> simp [State.status, h]
  · cases h : s.mode <;> simp [State.status, modeBit, h]
  all_goals simp only [State.status, BitVec.toNat_ofNat]; omega

/-! ## The step and the host port -/

/-- Settles O10: the accepted state, written out. -/
theorem stepRunsPresentedOperation : Obligations.StepRunsPresentedOperation := by
  intro s d rest i hb hin hd
  rw [step_present_ok hb hin hd, State.accept]

/-- Settles O12: a busy block's step is `finish`, which commutes with any change of the inputs; an event-level step is
`advance`, which keeps that end. -/
theorem busyBlockIgnoresPort : Obligations.BusyBlockIgnoresPort := by
  constructor
  · intro s ins hb hs hins
    refine ⟨s.finish, step_of_busy hb hs, ?_, finish_busy s, finish_latch s, finish_inputs s⟩
    rw [← finish_withInputs s ins]
    exact step_of_busy (s := { s with inputs := ins }) hb hins
  · intro s d hb
    refine ⟨?_, s.advance, ?_, advance_latch s, finish_advance s⟩
    · rw [eventStep_of_busy (input := .present d) hb nofun, eventStep_of_busy (input := .idle) hb nofun]
    · exact eventStep_of_busy (input := .idle) hb nofun

/-- Settles O54: refusal by cases on decoding and on the mode; an accepted expansion, performed line by line, ends in
the same completed state. -/
theorem eventLevelRefinesCallLevel : Obligations.EventLevelRefinesCallLevel := by
  intro s d rest hb
  cases hd : decode d with
  | error err =>
    rw [eventStep_present_error hb hd, step_present_error (s := { s with inputs := .present d :: rest }) hb rfl hd]
    exact ⟨fun r => Iff.rfl, nofun⟩
  | ok i =>
    rw [eventStep_present_ok hb hd, step_present_ok (s := { s with inputs := .present d :: rest }) hb rfl hd,
      exec_eq_script]
    have hscript : script i (s.accept d) = script i s := script_withPort i s true _ s.todo s.inputs
    by_cases hacc : acceptedIn i s.mode = true
    · simp only [accept_mode, hacc, ↓reduceIte, hscript, completing]
      refine ⟨fun r => ⟨nofun, nofun⟩, fun t ht => ?_⟩
      have ht' : t = { s.accept d with todo := script i s } := (Host.Outcome.next.inj ht).symm
      have hbusy : t.busy = true := by rw [ht']; rfl
      refine ⟨hbusy, eventRun_todo_busy hbusy, ?_⟩
      have hfin : t.finish
          = { (s.perform (script i s)).complete with latch := splitDescriptor d, inputs := s.inputs } := by
        rw [ht']
        exact complete_perform_withPort s _ true _ (script i s) s.inputs
      rw [eventRun_todo_finish hbusy, hfin]
      exact congrArg _ (accept_perform_complete s d rest (script i s))
    · simp [hacc, completing]

/-! ## Frames of the operations -/

/-- Settles O45, over the four forms of an expansion. -/
theorem operationsChangeOnlyTheirState : Obligations.OperationsChangeOnlyTheirState := by
  intro i s t h
  obtain ⟨-, rfl⟩ := exec_next h
  refine ⟨perform_busy .., perform_latch .., perform_inputs .., perform_todo .., perform_trace_prefix .., ?_⟩
  obtain rfl | ⟨r, rfl⟩ | ⟨r, g, b, rfl⟩ | ⟨hf, ts, hts⟩ := script_cases i s
  · rw [perform_init]
    simp
  · rw [perform_setrot]
    simp [settleAll_keeps]
  · rw [perform_color565]
    simp
  · rw [hts, perform_framed]
    simp [settleAll_keeps, hf.notColor565]

/-- Settles O46: of the five ways a step goes on, only a hardware reset and an accepted INIT write MODE. -/
theorem modeChangesOnlyByInitAndReset : Obligations.ModeChangesOnlyByInitAndReset := by
  intro s t hb hstep hne
  obtain ⟨rest, hin, rfl⟩ | ⟨hb', -, -⟩ | ⟨-, -, rfl⟩ | ⟨-, rest, -, rfl⟩ |
    ⟨-, d, rest, i, hin, hd, -, rfl⟩ := step_next hstep
  case inl =>
    refine .inr ⟨?_, rfl, rest, hin⟩
    cases hm : s.mode with
    | ready => rfl
    | uninit => exact absurd hm.symm hne
  case inr.inl => rw [hb] at hb'; cases hb'
  case inr.inr.inl => exact absurd rfl hne
  case inr.inr.inr.inl => exact absurd rfl hne
  case inr.inr.inr.inr =>
    rw [complete_mode] at hne ⊢
    by_cases hi : i = .init
    · subst hi
      rw [perform_init_mode] at hne ⊢
      refine .inl ⟨?_, rfl, d, rest, hin, hd⟩
      cases hm : s.mode with
      | uninit => rfl
      | ready => exact absurd hm.symm hne
    · rw [perform_script_mode hi] at hne
      exact absurd rfl hne

/-- Settles O47: framed writes drive no control line but RS and WR, and INIT's ten set-up events are read off. -/
theorem controlLinesAreNeverMisdriven : Obligations.ControlLinesAreNeverMisdriven := by
  constructor
  · intro i s t e h he
    obtain ⟨-, rfl⟩ := exec_next h
    by_cases hi : i = .init
    · subst hi
      rw [perform_init] at he
      simp only [List.drop_left, List.mem_append] at he
      obtain he | he := he
      · refine ⟨?_, ?_, fun _ _ => rfl⟩ <;> rintro rfl <;> revert he <;> decide
      · obtain ⟨hcs, hrd, -⟩ := eventsOf_drives_no_control he
        exact ⟨hrd _, hcs _, fun _ _ => rfl⟩
    · obtain ⟨ts, hts⟩ := perform_script_trace hi s
      rw [hts, List.drop_left] at he
      obtain ⟨hcs, hrd, hrst⟩ := eventsOf_drives_no_control he
      exact ⟨hrd _, hcs _, fun l hl => absurd hl (hrst l)⟩
  · intro s t h
    obtain ⟨-, rfl⟩ := exec_next h
    rw [perform_init]
    simp

/-- Settles O49: the expansion is the same one, and each of its four forms, performed from both states, is compared. -/
theorem rotationAndResultAreNeverRead : Obligations.RotationAndResultAreNeverRead := by
  intro i s t q v h
  obtain ⟨hacc, rfl⟩ := exec_next h
  have h' : exec i { s with rot := q, res := v } = .next ({ s with rot := q, res := v }.perform (script i s)) := by
    rw [exec_eq_script, script_withRotRes]
    exact if_pos hacc
  refine ⟨_, h', ?_⟩
  obtain rfl | ⟨r, rfl⟩ | ⟨r, g, b, rfl⟩ | ⟨hf, ts, hts⟩ := script_cases i s
  · have hq := perform_init { s with rot := q, res := v }
    rw [script_withRotRes] at hq
    simp [hq, perform_init s]
  · simp [perform_setrot]
  · simp [perform_color565]
  · simp [hts, perform_framed, hf.notInit, hf.notSetrot, hf.notColor565]

end Sys2Proof.Proofs

/-! The observer's side of the pins and of the window: a descriptor written as bytes, the pixels a stream reaches, and
what a list of events latches. The settled statements of 20_memory.md are built on this layer. -/

namespace Sys2Proof.Proofs

open Sys2Proof.Machine
open Sys2Proof.Laws

/-! ## Bytes of a descriptor -/

/-- Putting bit vectors side by side shifts the left one past the right one. -/
theorem toNat_append_eq_mul_add {m n : Nat} (a : BitVec m) (b : BitVec n) :
    (a ++ b).toNat = a.toNat * 2 ^ n + b.toNat := by
  rw [BitVec.toNat_append, ← Nat.shiftLeft_add_eq_or_of_lt b.isLt, Nat.shiftLeft_eq]

/-- A word as a number from its two halves (R8). -/
theorem toNat_eq_hi8_lo8 (w : Word) : w.toNat = (hi8 w).toNat * 2 ^ 8 + (lo8 w).toNat := by
  have hw := w.isLt
  simp only [hi8, lo8, BitVec.extractLsb'_toNat, Nat.shiftRight_eq_div_pow]
  omega

/-- A word's upper byte, then its lower, count as the word (R34). -/
theorem bytesToNat_append_word (bs : List Byte) (w : Word) :
    bytesToNat (bs ++ [hi8 w, lo8 w]) = bytesToNat bs * 2 ^ 16 + w.toNat := by
  have hw := toNat_eq_hi8_lo8 w
  simp only [bytesToNat, List.foldl_append, List.foldl_cons, List.foldl_nil]
  omega

/-- The bytes of a descriptor's fields in the order of R50, each word most significant byte first (R34). -/
def fieldBytes (f : Fields) : List Byte :=
  [f.opc] ++ [hi8 f.f0, lo8 f.f0] ++ [hi8 f.f1, lo8 f.f1] ++ [hi8 f.f2, lo8 f.f2] ++ [hi8 f.f3, lo8 f.f3]
    ++ [hi8 f.f4, lo8 f.f4]

/-- Those bytes as one number are the descriptor. -/
theorem bytesToNat_fieldBytes (f : Fields) : bytesToNat (fieldBytes f) = (joinDescriptor f).toNat := by
  have hopc : bytesToNat [f.opc] = f.opc.toNat := by simp [bytesToNat]
  simp only [fieldBytes, joinDescriptor, bytesToNat_append_word, toNat_append_eq_mul_add, hopc]

/-- Settles O9: the eleven bytes as one number are the descriptor joined from the fields, and splitting it gives the
fields back. -/
theorem descriptorBytesMostSignificantFirst : Obligations.DescriptorBytesMostSignificantFirst := by
  intro f
  change decodeBytes (fieldBytes f) = decodeFields f
  have hlen : (fieldBytes f).length = 11 := rfl
  rw [decodeBytes, if_pos hlen, bytesToNat_fieldBytes, BitVec.ofNat_toNat, BitVec.setWidth_eq, decode, split_join]

/-! ## The pixels of a window -/

/-- A window has at least one column (R31). -/
theorem columns_pos (v : Window) : 0 < v.columns := Nat.succ_pos _

/-- The `k`-th word reaches column `a`, row `b` of the window exactly when `k` counts `b` whole rows and `a` more. -/
theorem target_eq_iff {v : Window} {k a b : Nat} (ha : a < v.columns) :
    v.target k = (v.x0 + a, v.y0 + b) ↔ k = v.columns * b + a := by
  simp only [Window.target, Prod.mk.injEq, Nat.add_left_cancel_iff]
  constructor
  · rintro ⟨rfl, rfl⟩
    exact (Nat.div_add_mod k v.columns).symm
  · rintro rfl
    rw [Nat.mul_add_mod, Nat.mod_eq_of_lt ha, Nat.mul_add_div (columns_pos v), Nat.div_eq_of_lt ha]
    exact ⟨rfl, Nat.add_zero b⟩

/-- Words below the window's size stay inside it (R31). -/
theorem target_inside {v : Window} {W H k : Nat} (hv : v.Valid W H) (hk : k < v.size) :
    v.x0 ≤ (v.target k).1 ∧ (v.target k).1 ≤ v.x1 ∧ v.y0 ≤ (v.target k).2 ∧ (v.target k).2 ≤ v.y1 := by
  obtain ⟨hx, -, hy, -⟩ := hv
  have hcol : k % v.columns < v.x1 - v.x0 + 1 := Nat.mod_lt k (columns_pos v)
  have hrow : k / v.columns < v.y1 - v.y0 + 1 := Nat.div_lt_of_lt_mul hk
  refine ⟨Nat.le_add_right .., ?_, Nat.le_add_right .., ?_⟩ <;> (simp only [Window.target]; omega)

/-- Settles O21: the pixel in column `a` and row `b` of the window is reached by word `columns * b + a` and no other. -/
theorem windowStreamReachesEachPixelOnce : Obligations.WindowStreamReachesEachPixelOnce := by
  intro v W H hv
  refine ⟨fun k hk => target_inside hv hk, fun x y hx0 hx1 hy0 hy1 => ?_⟩
  obtain ⟨a, rfl⟩ := Nat.exists_eq_add_of_le hx0
  obtain ⟨b, rfl⟩ := Nat.exists_eq_add_of_le hy0
  have ha : a < v.columns := by simp only [Window.columns]; omega
  have hb : b + 1 ≤ v.y1 - v.y0 + 1 := by omega
  refine ⟨v.columns * b + a, ?_, (target_eq_iff ha).mpr rfl, fun j _ hj => (target_eq_iff ha).mp hj⟩
  calc v.columns * b + a < v.columns * (b + 1) := by rw [Nat.mul_succ]; omega
    _ ≤ v.size := Nat.mul_le_mul_left v.columns hb

/-! ## What a list of events latches -/

/-- Latching a list in two parts: the second starts on the pins and the width the first leaves (R9). -/
theorem latchedFrom_append (p : Pins) (wide : Bool) (as bs : List Event) :
    latchedFrom p wide (as ++ bs)
      = latchedFrom p wide as ++ latchedFrom (p.afterAll as) (as.foldl widthAfter wide) bs := by
  induction as generalizing p wide with
  | nil => rfl
  | cons e as ih => simp [latchedFrom, ih]

/-- Without a write of WR to active nothing is latched (R33). -/
theorem latchedFrom_eq_nil {es : List Event} (h : ∀ e ∈ es, e ≠ .pinWrite (.wr .active)) (p : Pins) (wide : Bool) :
    latchedFrom p wide es = [] := by
  induction es generalizing p wide with
  | nil => rfl
  | cons e es ih =>
    obtain ⟨he, hes⟩ := List.forall_mem_cons.mp h
    simp [latchedFrom, isLatch, he, ih hes]

/-- A framed write latches its one transaction, whatever the pins held before (R73). -/
theorem latchedFrom_events (p : Pins) (wide : Bool) (t : Transaction) : latchedFrom p wide t.events = [t] := by
  cases t <;>
    simp [Transaction.events, latchedFrom, isLatch, Pins.write, Pins.drive, Pins.latched, widthAfter]

/-- Framed writes one after another latch their transactions in order (R77). -/
theorem latchedFrom_eventsOf (p : Pins) (wide : Bool) (ts : List Transaction) :
    latchedFrom p wide (eventsOf ts) = ts := by
  induction ts generalizing p wide with
  | nil => rfl
  | cons t ts ih =>
    have hcons : eventsOf (t :: ts) = t.events ++ eventsOf ts := rfl
    rw [hcons, latchedFrom_append, latchedFrom_events, ih, List.singleton_append]

/-- Every operation adds framed writes, in INIT after set-up events none of which writes WR to active (R73, R80). -/
theorem exec_adds_quiet_then_framed {i : Instr} {s t : State} (h : exec i s = .next t) :
    ∃ (es : List Event) (ts : List Transaction), t.trace.drop s.trace.length = es ++ eventsOf ts ∧
      ∀ e ∈ es, e ≠ .pinWrite (.wr .active) := by
  obtain ⟨-, rfl⟩ := exec_next h
  by_cases hi : i = .init
  · subst hi
    rw [perform_init]
    exact ⟨_, _, List.drop_left, by decide⟩
  · obtain ⟨ts, hts⟩ := perform_script_trace hi s
    exact ⟨[], ts, by rw [hts, List.drop_left, List.nil_append], by simp⟩

/-- Settles O48: the events before the framed writes latch nothing, and a framed write sets RS, the data lines and WR
itself before it latches. -/
theorem latchedTraceForgetsHeldLevels : Obligations.LatchedTraceForgetsHeldLevels := by
  intro i s t p q v w h
  obtain ⟨es, ts, hadd, hquiet⟩ := exec_adds_quiet_then_framed h
  simp only [hadd, latchedFrom_append, latchedFrom_eq_nil hquiet, latchedFrom_eventsOf]

end Sys2Proof.Proofs

/-! The decoder: one equation for each opcode, and what a descriptor can decode to. The settled statements of
30_encoding.md are built on this layer. -/

namespace Sys2Proof.Proofs

open Sys2Proof.Machine
open Sys2Proof.Laws

/-! ## The opcode map, one equation a row (R52, R54) -/

section
variable {f : Fields}

theorem decodeFields_init (h : f.opc = 0x01) : decodeFields f = .ok .init := by
  rw [decodeFields, h]; rfl

theorem decodeFields_wrcmd (h : f.opc = 0x02) : decodeFields f = .ok (.wrcmd (fieldByte f.f0)) := by
  rw [decodeFields, h]; rfl

theorem decodeFields_wrdat8 (h : f.opc = 0x03) : decodeFields f = .ok (.wrdat8 (fieldByte f.f0)) := by
  rw [decodeFields, h]; rfl

theorem decodeFields_wrdat16 (h : f.opc = 0x04) : decodeFields f = .ok (.wrdat16 f.f0) := by
  rw [decodeFields, h]; rfl

theorem decodeFields_setwin (h : f.opc = 0x05) : decodeFields f = .ok (.setwin f.f0 f.f1 f.f2 f.f3) := by
  rw [decodeFields, h]; rfl

theorem decodeFields_setrot (h : f.opc = 0x06) : decodeFields f = .ok (.setrot (fieldByte f.f0)) := by
  rw [decodeFields, h]; rfl

theorem decodeFields_invert (h : f.opc = 0x07) : decodeFields f = .ok (.invert (fieldBit0 f.f0)) := by
  rw [decodeFields, h]; rfl

theorem decodeFields_pixel (h : f.opc = 0x08) :
    decodeFields f = .ok (.pixel (sext16 f.f0) (sext16 f.f1) f.f4) := by
  rw [decodeFields, h]; rfl

theorem decodeFields_vline (h : f.opc = 0x09) :
    decodeFields f = .ok (.vline (sext16 f.f0) (sext16 f.f1) (sext16 f.f2) f.f4) := by
  rw [decodeFields, h]; rfl

theorem decodeFields_hline (h : f.opc = 0x0A) :
    decodeFields f = .ok (.hline (sext16 f.f0) (sext16 f.f1) (sext16 f.f2) f.f4) := by
  rw [decodeFields, h]; rfl

theorem decodeFields_fillrect (h : f.opc = 0x0B) :
    decodeFields f = .ok (.fillrect (sext16 f.f0) (sext16 f.f1) (sext16 f.f2) (sext16 f.f3) f.f4) := by
  rw [decodeFields, h]; rfl

theorem decodeFields_fillscr (h : f.opc = 0x0C) : decodeFields f = .ok (.fillscr f.f4) := by
  rw [decodeFields, h]; rfl

theorem decodeFields_line (h : f.opc = 0x0D) :
    decodeFields f = .ok (.line (sext16 f.f0) (sext16 f.f1) (sext16 f.f2) (sext16 f.f3) f.f4) := by
  rw [decodeFields, h]; rfl

theorem decodeFields_color565 (h : f.opc = 0x0E) :
    decodeFields f = .ok (.color565 (fieldByte f.f0) (fieldByte f.f1) (fieldByte f.f2)) := by
  rw [decodeFields, h]; rfl

end

/-! ## What a descriptor can decode to -/

/-- An opcode without a row in the map (R55). -/
def Reserved (opc : Byte) : Prop := opc = 0 ∨ 0x0F ≤ opc.toNat

/-- No row of the map has a reserved opcode (R52, R55). -/
theorem not_reserved_opcode (i : Instr) : ¬ Reserved i.opcode := by
  cases i <;> simp [Reserved, Instr.opcode]

/-- The opcode alone selects the operation (R51). -/
theorem opcode_of_decodeFields_ok {f : Fields} {i : Instr} (h : decodeFields f = .ok i) : i.opcode = f.opc := by
  unfold decodeFields at h
  split at h <;> cases h <;> exact BitVec.eq_of_toNat_eq (Eq.symm ‹_›)

/-- Every operand comes out of its field in range (R54). -/
theorem wellFormed_of_decodeFields_ok {f : Fields} {i : Instr} (h : decodeFields f = .ok i) : i.WellFormed := by
  unfold decodeFields at h
  split at h <;> cases h <;> simp only [Instr.WellFormed, InInt16, sext16_inRange, and_self]

/-- The only error of the decoder proper names a reserved opcode (R55). -/
theorem reserved_of_decodeFields_error {f : Fields} {err : DecodeError} (h : decodeFields f = .error err) :
    Reserved f.opc ∧ err = .reservedOpcode f.opc := by
  unfold decodeFields at h
  split at h <;> cases h
  -- only the last row answers an error, and there the opcode is none of 0x01 to 0x0E
  have hzero : f.opc = 0 ↔ f.opc.toNat = 0 := BitVec.toNat_inj.symm
  refine ⟨?_, rfl⟩
  simp only [Reserved, hzero, imp_false] at *
  omega

/-- Exactly the reserved opcodes are rejected, by name (R55). -/
theorem reserved_iff_decodeFields_error (f : Fields) :
    Reserved f.opc ↔ decodeFields f = .error (.reservedOpcode f.opc) := by
  refine ⟨fun hres => ?_, fun h => (reserved_of_decodeFields_error h).1⟩
  cases h : decodeFields f with
  | ok i => exact absurd (opcode_of_decodeFields_ok h ▸ hres) (not_reserved_opcode i)
  | error err => rw [(reserved_of_decodeFields_error h).2]

/-! ## The settled statements -/

/-- Settles O5: joining and splitting give the fields back, and each operand survives its field. -/
theorem decodeOfEncodeIsIdentity : Obligations.DecodeOfEncodeIsIdentity := by
  intro i hwf
  rw [decode_encode_eq]
  cases i with
  | init => exact decodeFields_init rfl
  | wrcmd byte => rw [Instr.fields, decodeFields_wrcmd (by rfl), fieldByte_fieldOfByte]
  | wrdat8 byte => rw [Instr.fields, decodeFields_wrdat8 (by rfl), fieldByte_fieldOfByte]
  | wrdat16 word => exact decodeFields_wrdat16 rfl
  | setwin x0 y0 x1 y1 => exact decodeFields_setwin rfl
  | setrot r => rw [Instr.fields, decodeFields_setrot (by rfl), fieldByte_fieldOfByte]
  | invert on => cases on <;> exact decodeFields_invert rfl
  | pixel x y color =>
    obtain ⟨hx, hy⟩ := hwf
    rw [Instr.fields, decodeFields_pixel (by rfl), sext16_fieldOfInt hx, sext16_fieldOfInt hy]
  | vline x y h color =>
    obtain ⟨hx, hy, hh⟩ := hwf
    rw [Instr.fields, decodeFields_vline (by rfl), sext16_fieldOfInt hx, sext16_fieldOfInt hy, sext16_fieldOfInt hh]
  | hline x y w color =>
    obtain ⟨hx, hy, hw⟩ := hwf
    rw [Instr.fields, decodeFields_hline (by rfl), sext16_fieldOfInt hx, sext16_fieldOfInt hy, sext16_fieldOfInt hw]
  | fillrect x y w h color =>
    obtain ⟨hx, hy, hw, hh⟩ := hwf
    rw [Instr.fields, decodeFields_fillrect (by rfl), sext16_fieldOfInt hx, sext16_fieldOfInt hy,
      sext16_fieldOfInt hw, sext16_fieldOfInt hh]
  | fillscr color => exact decodeFields_fillscr rfl
  | line x0 y0 x1 y1 color =>
    obtain ⟨hx0, hy0, hx1, hy1⟩ := hwf
    rw [Instr.fields, decodeFields_line (by rfl), sext16_fieldOfInt hx0, sext16_fieldOfInt hy0,
      sext16_fieldOfInt hx1, sext16_fieldOfInt hy1]
  | color565 r g b =>
    rw [Instr.fields, decodeFields_color565 (by rfl), fieldByte_fieldOfByte, fieldByte_fieldOfByte,
      fieldByte_fieldOfByte]

/-- Settles O6, from the two facts about a successful decode. -/
theorem decodedIsWellFormed : Obligations.DecodedIsWellFormed :=
  fun _ _ h => ⟨wellFormed_of_decodeFields_ok h, opcode_of_decodeFields_ok h⟩

/-- Settles O7: both descriptors have the same row of the map, which reads only what the clause says agrees. -/
theorem unassignedBitsAreIgnored : Obligations.UnassignedBitsAreIgnored := by
  intro f g hopc
  rw [hopc]
  refine ⟨?_, ?_, ?_, ?_, ?_, ?_, ?_, ?_, ?_⟩
  · intro hg
    rw [decodeFields_init hg, decodeFields_init (hopc.trans hg)]
  · intro hg (h0 : fieldByte f.f0 = fieldByte g.f0)
    obtain hg | hg | hg := hg
    · rw [decodeFields_wrcmd hg, decodeFields_wrcmd (hopc.trans hg), h0]
    · rw [decodeFields_wrdat8 hg, decodeFields_wrdat8 (hopc.trans hg), h0]
    · rw [decodeFields_setrot hg, decodeFields_setrot (hopc.trans hg), h0]
  · intro hg h0
    rw [decodeFields_wrdat16 hg, decodeFields_wrdat16 (hopc.trans hg), h0]
  · intro hg h0 h1 h2 h3
    rw [decodeFields_setwin hg, decodeFields_setwin (hopc.trans hg), h0, h1, h2, h3]
  · intro hg (h0 : fieldBit0 f.f0 = fieldBit0 g.f0)
    rw [decodeFields_invert hg, decodeFields_invert (hopc.trans hg), h0]
  · intro hg h0 h1 h4
    rw [decodeFields_pixel hg, decodeFields_pixel (hopc.trans hg), h0, h1, h4]
  · intro hg h0 h1 h2 h4
    obtain hg | hg := hg
    · rw [decodeFields_vline hg, decodeFields_vline (hopc.trans hg), h0, h1, h2, h4]
    · rw [decodeFields_hline hg, decodeFields_hline (hopc.trans hg), h0, h1, h2, h4]
  · intro hg h4
    rw [decodeFields_fillscr hg, decodeFields_fillscr (hopc.trans hg), h4]
  · intro hg (h0 : fieldByte f.f0 = fieldByte g.f0) (h1 : fieldByte f.f1 = fieldByte g.f1)
      (h2 : fieldByte f.f2 = fieldByte g.f2)
    rw [decodeFields_color565 hg, decodeFields_color565 (hopc.trans hg), h0, h1, h2]

/-- Settles O8: a reserved opcode decodes to the error of its name, and a step at rest refuses what does not decode. -/
theorem reservedOpcodesAreRefused : Obligations.ReservedOpcodesAreRefused := by
  have hiff (d : Descriptor) : Reserved (splitDescriptor d).opc ↔
      decode d = .error (.reservedOpcode (splitDescriptor d).opc) := reserved_iff_decodeFields_error _
  exact ⟨hiff, fun s d rest hb hin hres => step_present_error hb hin ((hiff d).mp hres)⟩

/-- Settles O4: each descriptor split and its row of the map read, by evaluation. -/
theorem writtenDescriptorsDecode : Obligations.WrittenDescriptorsDecode := ⟨rfl, rfl, rfl, rfl, rfl⟩

/-- Settles O55: the equations of the opcode map. -/
theorem decodeReadsOperandsFromFields : Obligations.DecodeReadsOperandsFromFields :=
  ⟨fun _ => rfl, fun _ => ⟨decodeFields_init, decodeFields_wrcmd, decodeFields_wrdat8, decodeFields_wrdat16,
    decodeFields_setwin, decodeFields_setrot, decodeFields_invert, decodeFields_pixel, decodeFields_vline,
    decodeFields_hline, decodeFields_fillrect, decodeFields_fillscr, decodeFields_line, decodeFields_color565⟩⟩

end Sys2Proof.Proofs

/-! The bus protocol: a framed write sent by a host operation. The settled statements of 40_bus_protocol.md are built on
this rule, on the equations of the opcode map, and on what a list of events latches. -/

namespace Sys2Proof.Proofs

open Sys2Proof.Machine
open Sys2Proof.Laws

/-! ## A framed write as an operation (R74 to R76) -/

/-- In `READY`, an operation whose expansion is one framed write settles the pins, adds the write's four events, and
changes nothing else (R74 to R76). -/
theorem exec_framedWrite {i : Instr} {s : State} {t : Transaction} (hm : s.mode = .ready)
    (hi : script i s = emits t.events) :
    exec i s = .next { s with pins := t.settle s.pins, trace := s.trace ++ t.events } := by
  rw [exec_of_ready hm, hi, perform_emits, afterAll_events]

/-! ## The settled statements -/

/-- Settles O19: each framed write unfolds to its transaction's events; the length and what is latched are the two
inductions over the list of transactions. -/
theorem framedWritesLatchInOrder : Obligations.FramedWritesLatchInOrder :=
  ⟨fun _ => ⟨rfl, rfl⟩, fun _ => rfl,
    fun ts p wide => ⟨eventsOf_length ts, latchedFrom_eventsOf p wide ts⟩⟩

/-- Settles O15: after the write to idle WR is at idle on any pins, so the write to active latches. -/
theorem pulseIsIdleThenActive : Obligations.PulseIsIdleThenActive := by
  refine ⟨rfl, fun p => ⟨rfl, ?_, ?_⟩⟩
  · simp [isLatch]
  · simp [isLatch, Pins.write]

/-- Settles O16: WRCMD is the framed write of `C(byte)`. -/
theorem wrcmdSendsCommand : Obligations.WrcmdSendsCommand :=
  ⟨fun byte _ hm => exec_framedWrite (t := .cmd byte) hm rfl,
    fun byte p wide => latchedFrom_events p wide (.cmd byte),
    fun _ => decodeFields_wrcmd⟩

/-- Settles O17: WRDAT8 is the framed write of `P(byte)`. -/
theorem wrdat8SendsByte : Obligations.Wrdat8SendsByte :=
  ⟨fun byte _ hm => exec_framedWrite (t := .data8 byte) hm rfl,
    fun byte p wide => latchedFrom_events p wide (.data8 byte),
    fun _ => decodeFields_wrdat8⟩

/-- Settles O18: WRDAT16 is the framed write of `W(word)`, and two of them latch a list of two equal transactions. -/
theorem wrdat16SendsWord : Obligations.Wrdat16SendsWord :=
  ⟨fun word _ hm => exec_framedWrite (t := .data16 word) hm rfl,
    fun word p wide => ⟨latchedFrom_events p wide (.data16 word),
      latchedFrom_eventsOf p wide [.data16 word, .data16 word]⟩,
    fun _ => decodeFields_wrdat16⟩

end Sys2Proof.Proofs

/-! INIT: its set-up events, its eight framed writes, and the place of `MODE <- READY` at its end. The settled
statements of 41_init_sequence.md are built on `perform_init` and on event-level runs of an expansion that ends so. -/

namespace Sys2Proof.Proofs

open Sys2Proof.Machine
open Sys2Proof.Laws

/-! ## What INIT adds to the trace -/

/-- INIT's ten set-up events: the control lines, then the reset pulse with its delays (R80, R81). -/
def initSetup : List Event :=
  [.pinWrite (.cs .active), .pinWrite (.rs .data), .pinWrite (.rd .idle), .pinWrite (.wr .idle),
    .pinWrite (.rst .inactive), .delay 5, .pinWrite (.rst .active), .delay 20, .pinWrite (.rst .inactive), .delay 150]

/-- The eight transactions INIT puts on the wire (R80). -/
def initTransactions : List Transaction :=
  [.cmd 0x3A, .data8 Config.params.pixfmt16, .cmd 0x36, .data8 (madctl Config.params Config.params.rotInit),
    .cmd 0x51, .data8 Config.params.bright, .cmd 0x11, .cmd 0x29]

/-- INIT adds its set-up events and then its framed writes (R80). -/
theorem perform_init_trace (s : State) :
    (s.perform (script .init s)).trace = s.trace ++ (initSetup ++ eventsOf initTransactions) :=
  congrArg State.trace (perform_init s)

/-- In the set-up WR is written to idle only. -/
theorem initSetup_quiet : ∀ e ∈ initSetup, e ≠ .pinWrite (.wr .active) := by decide

/-! ## An expansion that ends in `MODE <- READY`, one event-level step a line -/

/-- A busy block stays busy up to and including the last line of what it has to do (R23). -/
theorem eventRun_busy {s : State} (hb : s.busy = true) {k : Nat} (hk : k ≤ s.todo.length) :
    (eventRun k s).busy = true := by
  rw [eventRun_perform s.todo s hb rfl k hk]
  exact (perform_busy ..).trans hb

/-- Of all lines only `MODE <- READY` writes MODE. -/
theorem act_mode_of_ne_ready {a : Action} (h : a ≠ .ready) (s : State) : (s.act a).mode = s.mode := by
  cases a with
  | ready => exact absurd rfl h
  | emit | geometry | result => rfl

/-- Lines without `MODE <- READY` leave MODE as it was. -/
theorem perform_mode_of_ready_notMem {as : List Action} (h : .ready ∉ as) (s : State) :
    (s.perform as).mode = s.mode := by
  induction as generalizing s with
  | nil => rfl
  | cons a as ih =>
    obtain ⟨ha, has⟩ := not_or.mp (List.mem_cons.not.mp h)
    rw [perform_cons, ih has, act_mode_of_ne_ready (Ne.symm ha)]

section
variable {s : State} {as : List Action}

/-- Until the closing `MODE <- READY` is reached MODE is what it was (R83). -/
theorem eventRun_mode_before_ready (hb : s.busy = true) (ht : s.todo = as ++ [.ready]) (h : .ready ∉ as) {k : Nat}
    (hk : k ≤ as.length) : (eventRun k s).mode = s.mode := by
  rw [eventRun_perform _ s hb ht k (by simp; omega), List.take_append_of_le_length hk]
  exact perform_mode_of_ready_notMem (fun hmem => h (List.mem_of_mem_take hmem)) s

/-- The closing `MODE <- READY` makes MODE `READY` (R80, R83). -/
theorem eventRun_mode_at_ready (hb : s.busy = true) (ht : s.todo = as ++ [.ready]) :
    (eventRun s.todo.length s).mode = .ready := by
  rw [eventRun_perform _ s hb rfl _ (Nat.le_refl _), List.take_length, ht, perform_append]
  rfl

end

/-- No line of `setRotation` writes MODE (R95). -/
theorem ready_notMem_setRotation (p : Params) (r : Byte) : .ready ∉ setRotation p r := by
  simp [setRotation, emits]

/-- INIT's expansion is 43 lines without `MODE <- READY`, its 42 events and the new geometry, and then that
one (R80, R83). -/
theorem script_init_ends_ready (s : State) :
    ∃ as, script .init s = as ++ [.ready] ∧ as.length = 43 ∧ .ready ∉ as :=
  ⟨_, rfl, rfl, by simp [emits, ready_notMem_setRotation]⟩

/-- A block at rest accepts INIT in either mode and has its expansion before it (R23, R82). -/
theorem eventStep_init {s : State} {d : Descriptor} (hb : s.busy = false) (hd : decode d = .ok .init) :
    eventStep (.present d) s = .next { s.accept d with todo := script .init (s.accept d) } := by
  rw [eventStep_present_ok hb hd]
  exact if_pos (by simp [acceptedIn, acceptedUninit])

/-! ## The settled statements -/

/-- Settles O26: INIT needs no mode, and `perform_init` says what its expansion does. -/
theorem initRunsWholeScript : Obligations.InitRunsWholeScript :=
  fun s => ⟨initSetup ++ eventsOf initTransactions, rfl, rfl, congrArg Host.Outcome.next (perform_init s)⟩

/-- Settles O27: the set-up events latch nothing, since none writes WR to active, and each framed write latches its
transaction. -/
theorem initLatchesEightTransactions : Obligations.InitLatchesEightTransactions := by
  intro s t wide h
  obtain ⟨-, rfl⟩ := exec_next h
  rw [perform_init_trace, List.drop_left, latchedFrom_append, latchedFrom_eq_nil initSetup_quiet, latchedFrom_eventsOf]
  rfl

/-- Settles O29: INIT's expansion has 44 lines and `MODE <- READY` is the last; one step more completes it. -/
theorem initBecomesReadyLast : Obligations.InitBecomesReadyLast := by
  intro s d t hb hd hstep
  rw [eventStep_init hb hd] at hstep
  obtain ⟨as, hscript, hlen, hready⟩ := script_init_ends_ready (s.accept d)
  have ht : t = { s.accept d with todo := as ++ [.ready] } := by
    rw [← hscript]
    exact (Host.Outcome.next.inj hstep).symm
  have hbusy : t.busy = true := by rw [ht]; rfl
  have htodo : t.todo = as ++ [.ready] := by rw [ht]
  have hmode : t.mode = s.mode := by rw [ht]; rfl
  have hlines : t.todo.length = 44 := by rw [htodo, List.length_append, hlen]; rfl
  refine ⟨fun k hk => ⟨?_, eventRun_busy hbusy (by omega)⟩, ?_, eventRun_busy hbusy (by omega), ?_⟩
  · rw [← hmode]
    exact eventRun_mode_before_ready hbusy htodo hready (by omega)
  · rw [← hlines]
    exact eventRun_mode_at_ready hbusy htodo
  · have hfinish := eventRun_todo_finish hbusy
    rw [hlines] at hfinish
    rw [hfinish, finish_busy]

end Sys2Proof.Proofs

/-! The address window: framed writes of bytes keep D[15:8], and an operation made of framed writes. The settled
statement of 42_addr_window.md is built on these rules. -/

namespace Sys2Proof.Proofs

open Sys2Proof.Machine
open Sys2Proof.Laws

/-! ## Several framed writes (R71, R77) -/

/-- Command and byte writes drive D[7:0] only, so D[15:8] hold (R71). -/
theorem settleAll_hi8 {ts : List Transaction} (h : ∀ w, .data16 w ∉ ts) (p : Pins) :
    hi8 (settleAll p ts).d = hi8 p.d := by
  induction ts generalizing p with
  | nil => rfl
  | cons t ts ih =>
    rw [settleAll_cons, ih fun w hw => h w (List.mem_cons_of_mem t hw)]
    cases t with
    | cmd b => exact hi8_append _ b
    | data8 b => exact hi8_append _ b
    | data16 w => exact absurd List.mem_cons_self (h w)

/-- Only the last of several command and byte writes ending in a command shows on the pins. -/
theorem settleAll_endsCommand {ts : List Transaction} (h : ∀ w, .data16 w ∉ ts) (b : Byte) (p : Pins) :
    settleAll p (ts ++ [.cmd b]) = { p with rs := .cmd, d := hi8 p.d ++ b, wr := .active } := by
  obtain ⟨hcs, hrd, hrst⟩ := settleAll_keeps p ts
  simp only [settleAll_append, settleAll_cons, settleAll_nil, Transaction.settle, settleAll_hi8 h, hcs, hrd, hrst]

/-- In `READY`, an operation whose expansion is a sequence of framed writes settles the pins, adds their events, and
changes nothing else (R73, R77). -/
theorem exec_framedWrites {i : Instr} {s : State} {ts : List Transaction} (hm : s.mode = .ready)
    (hi : script i s = emits (eventsOf ts)) :
    exec i s = .next { s with pins := settleAll s.pins ts, trace := s.trace ++ eventsOf ts } := by
  rw [exec_of_ready hm, hi, perform_framed]

/-! ## The window sequence -/

/-- The eleven transactions leave RS at cmd, D[7:0] at memory-write, and D[15:8] as they were (R57, R90). -/
theorem settleAll_windowTransactions (x0 y0 x1 y1 : Word) (p : Pins) :
    settleAll p (windowTransactions x0 y0 x1 y1) = { p with rs := .cmd, d := hi8 p.d ++ (0x2C : Byte), wr := .active } :=
  settleAll_endsCommand (ts := (windowTransactions x0 y0 x1 y1).dropLast) (by simp [windowTransactions]) 0x2C p

/-- Settles O20: SETWIN is the framed writes of the window's transactions, and only the last of them shows on the
pins. -/
theorem setwinSendsWindowSequence : Obligations.SetwinSendsWindowSequence := by
  intro x0 y0 x1 y1 s hm
  have hscript : script (.setwin x0 y0 x1 y1) s = emits (eventsOf (windowTransactions x0 y0 x1 y1)) :=
    congrArg emits (setAddrWindow_eq x0 y0 x1 y1)
  rw [exec_framedWrites hm hscript, settleAll_windowTransactions]
  rfl

end Sys2Proof.Proofs

/-! Orientation and inversion: the tables SETROT reads, what its two framed writes leave on the pins, and INVERT's single
command. The settled statements of 43_orientation.md are built on `perform_setrot` and these rules. -/

namespace Sys2Proof.Proofs

open Sys2Proof.Machine
open Sys2Proof.Laws

/-! ## The tables of a rotation -/

/-- `P_MADCTL` rotation by rotation (R97). -/
theorem madctl_table (p : Params) (q : Fin 4) :
    (q.val = 0 → madctl p q = p.madctl0) ∧ (q.val = 1 → madctl p q = p.madctl1) ∧
      (q.val = 2 → madctl p q = p.madctl2) ∧ (q.val = 3 → madctl p q = p.madctl3) := by
  refine ⟨?_, ?_, ?_, ?_⟩ <;> (intro h; simp only [madctl, h])

/-- Rotations 0 and 2 have the physical dimensions (R16). -/
theorem dims_of_upright (p : Params) {q : Fin 4} (h : q.val = 0 ∨ q.val = 2) : dims p q = (p.physW, p.physH) :=
  if_pos h

/-- Rotations 1 and 3 have the physical dimensions swapped (R16). -/
theorem dims_of_turned (p : Params) {q : Fin 4} (h : q.val = 1 ∨ q.val = 3) : dims p q = (p.physH, p.physW) :=
  if_neg (by omega)

/-! ## SETROT -/

/-- The command and its parameter leave RS at data, D[7:0] at the parameter, and D[15:8] as they were (R71, R95). -/
theorem settleAll_setrotTransactions (r : Byte) (p : Pins) :
    settleAll p (setrotTransactions r) = { p with
      rs := .data, d := hi8 p.d ++ madctl Config.params (mod4 r), wr := .active } := by
  simp [setrotTransactions, Transaction.settle]

/-- SETROT reads its operand through `mod4` only (R95). -/
theorem exec_setrot_congr {r r' : Byte} (h : mod4 r = mod4 r') (s : State) :
    exec (.setrot r) s = exec (.setrot r') s := by
  have hscript : scriptSetrot r s = scriptSetrot r' s := by simp only [scriptSetrot, setRotation, h]
  exact congrArg s.whenReady hscript

/-- A completed SETROT leaves the dimensions of its rotation (R95). -/
theorem exec_setrot_dims {r : Byte} {s t : State} (h : exec (.setrot r) s = .next t) :
    (t.width, t.height) = dims Config.params (mod4 r) := by
  obtain ⟨-, rfl⟩ := exec_next h
  rw [perform_setrot]

/-- Of two completed SETROTs, to rotation 0 or 2 and to rotation 1 or 3, the first leaves the physical dimensions and
the second has them swapped (R96). -/
theorem exec_setrot_swaps {r r' : Byte} {s t t' : State} (hr : (mod4 r).val = 0 ∨ (mod4 r).val = 2)
    (hr' : (mod4 r').val = 1 ∨ (mod4 r').val = 3) (h : exec (.setrot r) s = .next t)
    (h' : exec (.setrot r') s = .next t') :
    t.width = Config.params.physW ∧ t.height = Config.params.physH ∧ t'.width = t.height ∧ t'.height = t.width := by
  obtain ⟨hw, hh⟩ := Prod.mk.inj ((exec_setrot_dims h).trans (dims_of_upright _ hr))
  obtain ⟨hw', hh'⟩ := Prod.mk.inj ((exec_setrot_dims h').trans (dims_of_turned _ hr'))
  exact ⟨hw, hh, hw'.trans hh.symm, hh'.trans hw.symm⟩

/-- The low 8 bits of a number of any width are that number modulo 4 (R96). -/
theorem low8_mod_four {n : Nat} (r : BitVec n) : (r.extractLsb' 0 8).toNat % 4 = r.toNat % 4 := by
  rw [BitVec.extractLsb'_toNat, Nat.shiftRight_zero]
  exact Nat.mod_mod_of_dvd r.toNat (by decide)

/-! ## INVERT -/

/-- INVERT's expansion is the framed write of one command (R98). -/
theorem script_invert (on : Bool) (s : State) :
    script (.invert on) s = emits (Transaction.cmd (if on then 0x21 else 0x20)).events := by
  cases on <;> rfl

/-! ## The settled statements -/

/-- Settles O23: `perform_setrot` gives the end state, and the two tables say what its rotation stands for. -/
theorem setrotSetsOrientation : Obligations.SetrotSetsOrientation := by
  intro r s hm
  refine ⟨_, exec_of_ready hm _, ?_⟩
  rw [perform_setrot, settleAll_setrotTransactions]
  obtain ⟨h0, h1, h2, h3⟩ := madctl_table Config.params (mod4 r)
  exact ⟨rfl, rfl, h0, h1, h2, h3, fun h => Prod.mk.inj (dims_of_upright _ h),
    fun h => Prod.mk.inj (dims_of_turned _ h)⟩

/-- Settles O24: `r mod 4` and `r` are the same rotation, rotations 0, 1 and 2, 3 are two such pairs, and the low byte
keeps the rotation. -/
theorem rotationIsTakenMod4 : Obligations.RotationIsTakenMod4 :=
  ⟨fun r s => exec_setrot_congr (mod4_of_fin (mod4 r)) s,
    fun _ _ _ => exec_setrot_swaps (.inl rfl) (.inl rfl),
    fun _ _ _ => exec_setrot_swaps (.inr rfl) (.inr rfl),
    fun _ => low8_mod_four⟩

/-- Settles O25: INVERT is the framed write of its command. -/
theorem invertSendsInversionCommand : Obligations.InvertSendsInversionCommand :=
  fun on s hm => exec_framedWrite hm (script_invert on s)

end Sys2Proof.Proofs

/-! Pixel and fast lines: an operation whose expansion is one burst, or nothing, and every drawing procedure as bursts
within the window contract. The settled statements of 44_pixel_fastlines.md are built on these rules and on the
burst of each drawing procedure in Laws/Draw. -/

namespace Sys2Proof.Proofs

open Sys2Proof.Machine
open Sys2Proof.Laws

/-! ## One burst, or nothing, as an operation (R105 to R107) -/

section
variable {i : Instr} {s : State}

/-- In `READY`, an operation whose expansion is a burst of at least one word leaves RS at data, WR at active and the
colour on the data lines, adds the burst's events, and changes nothing else (R105 to R107). -/
theorem exec_colorBurst {x0 y0 x1 y1 : Int} {n : Nat} {c : Word} (hm : s.mode = .ready) (hn : 0 < n)
    (hi : script i s = emits (eventsOf (colorBurst x0 y0 x1 y1 n c).transactions)) :
    exec i s = .next { s with
      pins := { s.pins with rs := .data, d := c, wr := .active }
      trace := s.trace ++ eventsOf (colorBurst x0 y0 x1 y1 n c).transactions } := by
  rw [exec_of_ready hm, hi, perform_emits, afterAll_colorBurst _ _ _ _ _ hn]

/-- In `READY`, an operation with an empty expansion completes in the state it found (R109). -/
theorem exec_nothing (hm : s.mode = .ready) (hi : script i s = emits []) : exec i s = .next s := by
  rw [exec_of_ready hm, hi]
  rfl

end

/-- Settles O30: PIXEL's expansion is the 1×1 burst inside the frame and empty outside. -/
theorem pixelDrawsOnePixelOrNothing : Obligations.PixelDrawsOnePixelOrNothing := by
  refine ⟨fun x y c s hm => ⟨fun hin => ⟨?_, ?_⟩, fun hout => ?_⟩, fun _ => decodeFields_pixel⟩
  · exact exec_colorBurst hm Nat.one_pos (congrArg emits (drawPixel_inside (by omega) c))
  · exact colorBurst_length x y x y 1 c
  · exact exec_nothing hm (congrArg emits (drawPixel_outside hout c))

/-- Settles O31: VLINE's expansion is the clipped run's burst, of at least one word since the start is inside the frame
and the length at least 1, or empty. -/
theorem vlineDrawsClippedRun : Obligations.VlineDrawsClippedRun := by
  refine fun x y h c s hm => ⟨fun hin => ?_, fun hout => ?_⟩
  · exact exec_colorBurst hm (by omega) (congrArg emits (drawFastVLine_run (by omega) c))
  · exact exec_nothing hm (congrArg emits (drawFastVLine_nothing (by omega) c))

/-- Settles O32: HLINE's expansion is the clipped run's burst along x, or empty. -/
theorem hlineDrawsClippedRun : Obligations.HlineDrawsClippedRun := by
  refine fun x y w c s hm => ⟨fun hin => ?_, fun hout => ?_⟩
  · exact exec_colorBurst hm (by omega) (congrArg emits (drawFastHLine_run (by omega) c))
  · exact exec_nothing hm (congrArg emits (drawFastHLine_nothing (by omega) c))

/-! ## The window contract of everything that is drawn (R31, R92, R108, R118, R128 (e)) -/

/-- The events are bursts one after another, each within the window contract in a frame of `W` by `H` pixels (R31). -/
def KeepsContract (W H : Nat) (es : List Event) : Prop :=
  ∃ bs : List Burst, es = eventsOf (bs.flatMap Burst.transactions) ∧ ∀ b ∈ bs, b.Ok W H

section
variable {W H : Nat}

theorem keepsContract_nil : KeepsContract W H [] := ⟨[], rfl, by simp⟩

theorem keepsContract_burst {b : Burst} (h : b.Ok W H) : KeepsContract W H (eventsOf b.transactions) :=
  ⟨[b], by simp, by simpa using h⟩

/-- A burst that fills a `w` by `h` rectangle inside the frame is within the contract (R31). -/
theorem keepsContract_rectangle {x y w h : Int} (hx : 0 ≤ x) (hw : 1 ≤ w) (hxw : x + w ≤ W) (hy : 0 ≤ y)
    (hh : 1 ≤ h) (hyh : y + h ≤ H) (c : Word) :
    KeepsContract W H (eventsOf (colorBurst x y (x + w - 1) (y + h - 1) (w * h).toNat c).transactions) := by
  have hsize : ((w * h).toNat : Int) = (x + w - 1 - x + 1) * (y + h - 1 - y + 1) := by
    rw [Int.toNat_of_nonneg (mul_nonneg (by omega) (by omega))]
    ring
  exact keepsContract_burst (colorBurst_ok hx (by omega) (by omega) hy (by omega) (by omega) hsize c)

theorem keepsContract_append {es fs : List Event} (he : KeepsContract W H es) (hf : KeepsContract W H fs) :
    KeepsContract W H (es ++ fs) := by
  obtain ⟨bs, rfl, hbs⟩ := he
  obtain ⟨cs, rfl, hcs⟩ := hf
  refine ⟨bs ++ cs, by rw [List.flatMap_append, eventsOf_append], fun b hb => ?_⟩
  exact (List.mem_append.mp hb).elim (hbs b) (hcs b)

/-- Procedures that each keep the contract keep it one after another. -/
theorem keepsContract_flatMap {α : Type} {f : α → List Event} (h : ∀ a, KeepsContract W H (f a)) (as : List α) :
    KeepsContract W H (as.flatMap f) := by
  induction as with
  | nil => exact keepsContract_nil
  | cons a as ih => exact keepsContract_append (h a) ih

/-- R108: the pixel's window is 1×1. -/
theorem drawPixel_keepsContract (x y : Int) (c : Word) : KeepsContract W H (drawPixel W H x y c) := by
  by_cases hn : OutsideFrame W H x y
  · rw [drawPixel_outside hn]
    exact keepsContract_nil
  · rw [drawPixel_inside hn]
    simpa using keepsContract_rectangle (W := W) (H := H) (x := x) (y := y) (w := 1) (h := 1)
      (by omega) (by omega) (by omega) (by omega) (by omega) (by omega) c

/-- R108: the run's window is one column wide and ends at the clipped end. -/
theorem drawFastVLine_keepsContract (x y h : Int) (c : Word) : KeepsContract W H (drawFastVLine W H x y h c) := by
  by_cases hn : OutsideFrame W H x y ∨ h < 1
  · rw [drawFastVLine_nothing hn]
    exact keepsContract_nil
  · rw [drawFastVLine_run hn]
    simpa using keepsContract_rectangle (W := W) (H := H) (x := x) (y := y) (w := 1) (h := min h (H - y))
      (by omega) (by omega) (by omega) (by omega) (by omega) (by omega) c

/-- R108: the run's window is one row high and ends at the clipped end. -/
theorem drawFastHLine_keepsContract (x y w : Int) (c : Word) : KeepsContract W H (drawFastHLine W H x y w c) := by
  by_cases hn : OutsideFrame W H x y ∨ w < 1
  · rw [drawFastHLine_nothing hn]
    exact keepsContract_nil
  · rw [drawFastHLine_run hn]
    simpa using keepsContract_rectangle (W := W) (H := H) (x := x) (y := y) (w := min w (W - x)) (h := 1)
      (by omega) (by omega) (by omega) (by omega) (by omega) (by omega) c

/-- R118: a fill sends nothing, one pixel, or the clipped rectangle. -/
theorem fillRect_keepsContract (x y w h : Int) (c : Word) : KeepsContract W H (fillRect W H x y w h c) := by
  by_cases hn : OutsideFrame W H x y ∨ w < 1 ∨ h < 1
  · rw [fillRect_nothing hn]
    exact keepsContract_nil
  by_cases h1 : min w (W - x) = 1 ∨ min h (H - y) = 1
  · rw [fillRect_pixel hn h1]
    exact drawPixel_keepsContract x y c
  · rw [fillRect_burst hn h1]
    exact keepsContract_rectangle (by omega) (by omega) (by omega) (by omega) (by omega) (by omega) c

theorem drawCallEvents_keepsContract (c : Word) (k : DrawCall) : KeepsContract W H (drawCallEvents W H c k) := by
  cases k with
  | hline x y n => exact drawFastHLine_keepsContract x y n c
  | vline x y n => exact drawFastVLine_keepsContract x y n c
  | pixel x y => exact drawPixel_keepsContract x y c

end

/-- The expansion of a drawing operation is events that keep the contract in the current frame; LINE's are those of its
calls (R108, R118, R128 (e)). -/
theorem script_drawing_keepsContract {i : Instr} (hd : Safety.isDrawing i = true) (s : State) :
    ∃ es, script i s = emits es ∧ KeepsContract s.width s.height es := by
  cases i with
  | pixel x y c => exact ⟨_, rfl, drawPixel_keepsContract x y c⟩
  | vline x y h c => exact ⟨_, rfl, drawFastVLine_keepsContract x y h c⟩
  | hline x y w c => exact ⟨_, rfl, drawFastHLine_keepsContract x y w c⟩
  | fillrect x y w h c => exact ⟨_, rfl, fillRect_keepsContract x y w h c⟩
  | fillscr c => exact ⟨_, rfl, fillRect_keepsContract 0 0 s.width s.height c⟩
  | line x0 y0 x1 y1 c => exact ⟨_, rfl, keepsContract_flatMap (drawCallEvents_keepsContract c) _⟩
  | init | wrcmd | wrdat8 | wrdat16 | setwin | setrot | invert | color565 => cases hd

/-- Settles O50: the expansion's bursts are what was added, and a window valid in a frame of at most 32767 by 32767 ends
at 32766. -/
theorem drawingKeepsWindowContract : Obligations.DrawingKeepsWindowContract := by
  intro i s t hd hw hh hexec
  obtain ⟨-, rfl⟩ := exec_next hexec
  obtain ⟨es, hscript, bs, rfl, hbs⟩ := script_drawing_keepsContract hd s
  refine ⟨bs, by rw [hscript, perform_emits], fun b hb => ?_⟩
  obtain ⟨⟨-, hx1, -, hy1⟩, -⟩ := hbs b hb
  exact ⟨hbs b hb, by omega, by omega⟩

end Sys2Proof.Proofs

/-! Rectangular fills. The settled statements of 45_fill.md are built on the three branches of the fill in Laws/Draw,
and FILLSCR on FILLRECT over the whole frame. -/

namespace Sys2Proof.Proofs

open Sys2Proof.Machine
open Sys2Proof.Laws

/-- In `READY`, operations with the same expansion answer the same. -/
theorem exec_eq_of_script_eq {i j : Instr} {s : State} (hm : s.mode = .ready) (h : script i s = script j s) :
    exec i s = exec j s := by
  rw [exec_of_ready hm, exec_of_ready hm, h]

/-- FILLSCR answers what FILLRECT over the full logical extent answers (R116). -/
theorem exec_fillscr_eq_fillrect (c : Word) (s : State) :
    exec (.fillscr c) s = exec (.fillrect 0 0 s.width s.height c) s := rfl

/-- Settles O33: FILLRECT's expansion is the clipped rectangle's burst, of at least one word since both sides are
positive, or PIXEL's expansion, or empty. -/
theorem fillrectFillsClippedRectangle : Obligations.FillrectFillsClippedRectangle := by
  refine fun x y w h c s hm => ⟨fun hin => ?_, fun hin => ?_, fun hout => ?_⟩
  · have hpos : 0 < min w (s.width - x) * min h (s.height - y) := mul_pos (by omega) (by omega)
    exact exec_colorBurst hm (Int.pos_iff_toNat_pos.mp hpos)
      (congrArg emits (fillRect_burst (by omega) (by omega) c))
  · exact exec_eq_of_script_eq hm (congrArg emits (fillRect_pixel (by omega) (by omega) c))
  · exact exec_nothing hm (congrArg emits (fillRect_nothing (by omega) c))

/-- Settles O34: FILLSCR through FILLRECT's rule; no side of the full extent is clipped, and on a frame one pixel wide or
tall FILLRECT draws the pixel at the origin. -/
theorem fillscrFillsWholeFrame : Obligations.FillscrFillsWholeFrame := by
  refine ⟨fun c s hw hh => ⟨exec_fillscr_eq_fillrect c s, fun hm hw2 hh2 => ?_, fun hm hone => ?_⟩,
    fun _ => decodeFields_fillscr⟩
  · have hsize : ((s.width : Int) * s.height).toNat = s.width * s.height := Int.toNat_natCast (s.width * s.height)
    obtain ⟨hburst, -, -⟩ := fillrectFillsClippedRectangle 0 0 s.width s.height c s hm
    rw [exec_fillscr_eq_fillrect, hburst (by omega)]
    simp only [sub_zero, min_self, zero_add, hsize]
  · obtain ⟨-, hpixel, -⟩ := fillrectFillsClippedRectangle 0 0 s.width s.height c s hm
    rw [exec_fillscr_eq_fillrect, hpixel (by omega)]
    exact exec_colorBurst hm Nat.one_pos (congrArg emits (drawPixel_inside (by omega) c))

end Sys2Proof.Proofs

/-! Lines. LINE through the list of calls it makes: what the list is in each of R121 to R126's cases, the points it covers,
and what the calls draw. The settled statements of 46_line.md are built on the loop lemmas of Laws/Line and on the bursts of
the fast lines in Laws/Draw. -/

namespace Sys2Proof.Proofs

open Sys2Proof.Machine
open Sys2Proof.Laws

/-! ## The calls, case by case (R121 to R124, R128 (d)) -/

/-- S1: a rejected line makes no call (R121). -/
theorem lineCalls_rejected {W H x0 y0 x1 y1 : Int} (h : LineRejected W H x0 y0 x1 y1) : lineCalls W H x0 y0 x1 y1 = [] :=
  if_pos h

/-- S2: any other line is that of its clamped endpoints (R122). -/
theorem lineCalls_clamped {W H x0 y0 x1 y1 : Int} (h : ¬LineRejected W H x0 y0 x1 y1) :
    lineCalls W H x0 y0 x1 y1 = lineClamped (max x0 0) (max y0 0) (max x1 0) (max y1 0) := by
  rw [lineCalls, if_neg h, clampNeg_eq_max, clampNeg_eq_max, clampNeg_eq_max, clampNeg_eq_max]

/-- S2 leaves endpoints that are not negative alone (R122). -/
theorem lineCalls_of_nonneg {W H x0 y0 x1 y1 : Int} (hx0 : 0 ≤ x0) (hy0 : 0 ≤ y0) (hx1 : 0 ≤ x1) (hy1 : 0 ≤ y1)
    (h : ¬((x0 ≥ W ∧ x1 ≥ W) ∨ (y0 ≥ H ∧ y1 ≥ H))) : lineCalls W H x0 y0 x1 y1 = lineClamped x0 y0 x1 y1 := by
  rw [lineCalls_clamped (by omega), max_eq_left hx0, max_eq_left hy0, max_eq_left hx1, max_eq_left hy1]

/-- S3 on equal `y`: one horizontal fast line (R123). -/
theorem lineClamped_horizontal (x0 x1 y : Int) :
    lineClamped x0 y x1 y = [.hline (min x0 x1) y (absVal (x1 - x0) + 1)] := if_pos rfl

/-- S3 on equal `x` and different `y`: one vertical fast line (R123). -/
theorem lineClamped_vertical {y0 y1 : Int} (h : y0 ≠ y1) (x : Int) :
    lineClamped x y0 x y1 = [.vline x (min y0 y1) (absVal (y1 - y0) + 1)] := by rw [lineClamped, if_neg h, if_pos rfl]

/-- S3 passes every other line on (R123, R124). -/
theorem lineClamped_general {x0 y0 x1 y1 : Int} (hx : x0 ≠ x1) (hy : y0 ≠ y1) :
    lineClamped x0 y0 x1 y1 = lineGeneral (lineSetup x0 y0 x1 y1) := by rw [lineClamped, if_neg hy, if_neg hx]

theorem absVal_sub_comm (a b : Int) : absVal (a - b) = absVal (b - a) := by simp only [absVal_eq]; omega

/-- S4's exchange of endpoints forgets which of them came first (R124). -/
theorem orderedSetup_symm {a a' : Int} (h : a ≠ a') (steep : Bool) (b b' : Int) :
    orderedSetup steep a b a' b' = orderedSetup steep a' b' a b := by
  unfold orderedSetup
  rcases Int.lt_or_gt_of_ne h with h | h
  · rw [if_neg (by omega), if_pos h]
  · rw [if_pos h, if_neg (by omega)]

/-- S4 gives a general line and its reversal one set-up (R124, R128 (d)). -/
theorem lineSetup_symm {x0 y0 x1 y1 : Int} (hx : x0 ≠ x1) (hy : y0 ≠ y1) :
    lineSetup x0 y0 x1 y1 = lineSetup x1 y1 x0 y0 := by
  unfold lineSetup
  rw [absVal_sub_comm y1 y0, absVal_sub_comm x1 x0, orderedSetup_symm hy, orderedSetup_symm hx]

theorem lineClamped_symm (x0 y0 x1 y1 : Int) : lineClamped x0 y0 x1 y1 = lineClamped x1 y1 x0 y0 := by
  by_cases hy : y0 = y1
  · rw [hy, lineClamped_horizontal, lineClamped_horizontal, min_comm, absVal_sub_comm]
  by_cases hx : x0 = x1
  · rw [hx, lineClamped_vertical hy, lineClamped_vertical (Ne.symm hy), min_comm, absVal_sub_comm]
  · rw [lineClamped_general hx hy, lineClamped_general (Ne.symm hx) (Ne.symm hy), lineSetup_symm hx hy]

/-- A line and its reversal make the same calls (R128 (d)). -/
theorem lineCalls_symm (W H x0 y0 x1 y1 : Int) : lineCalls W H x0 y0 x1 y1 = lineCalls W H x1 y1 x0 y0 := by
  by_cases h : LineRejected W H x0 y0 x1 y1
  · rw [lineCalls_rejected h, lineCalls_rejected (by omega)]
  · rw [lineCalls_clamped h, lineCalls_clamped (by omega), lineClamped_symm]

/-! ## LINE as the operations of its calls (R120) -/

/-- LINE depends on its endpoints through its calls only. -/
theorem exec_line_congr {s : State} {x0 y0 x1 y1 x0' y0' x1' y1' : Int}
    (h : lineCalls s.width s.height x0 y0 x1 y1 = lineCalls s.width s.height x0' y0' x1' y1') (c : Word) :
    exec (.line x0 y0 x1 y1 c) s = exec (.line x0' y0' x1' y1' c) s :=
  congrArg (fun ks : List DrawCall => s.whenReady (emits (ks.flatMap (drawCallEvents s.width s.height c)))) h

/-- The operation of a call has the call's events as its expansion. -/
theorem script_callInstr (c : Word) (k : DrawCall) (s : State) :
    script (callInstr c k) s = emits (drawCallEvents s.width s.height c k) := by cases k <;> rfl

/-- In `READY`, a LINE of a single call answers what the operation of that call answers. -/
theorem exec_line_single {s : State} {x0 y0 x1 y1 : Int} {k : DrawCall} (hm : s.mode = .ready)
    (h : lineCalls s.width s.height x0 y0 x1 y1 = [k]) (c : Word) :
    exec (.line x0 y0 x1 y1 c) s = exec (callInstr c k) s := by
  refine exec_eq_of_script_eq hm (Eq.trans ?_ (script_callInstr c k s).symm)
  show emits (drawLine s.width s.height x0 y0 x1 y1 c) = _
  rw [drawLine, h, List.flatMap_singleton]

/-- In `READY`, calls run as operations one after another complete and add the events of all of them: none of them
changes the mode or the frame the next is drawn in. -/
theorem execAll_callInstr (c : Word) (ks : List DrawCall) {s : State} (hm : s.mode = .ready) :
    execAll (ks.map (callInstr c)) s = .next (s.perform (emits (ks.flatMap (drawCallEvents s.width s.height c)))) := by
  induction ks generalizing s with
  | nil => rfl
  | cons k ks ih =>
    have hfirst : exec (callInstr c k) s = .next (s.perform (emits (drawCallEvents s.width s.height c k))) := by
      rw [exec_of_ready hm, script_callInstr]
    have hrest := ih (perform_mode_of_ready hm (emits (drawCallEvents s.width s.height c k)))
    rw [perform_emits] at hfirst hrest
    rw [List.map_cons, execAll, hfirst]
    simp only [hrest, perform_emits, List.flatMap_cons, afterAll_append, List.append_assoc]

/-- A horizontal fast line of one pixel is that pixel (R107). -/
theorem drawFastHLine_one (W H x y : Int) (c : Word) : drawFastHLine W H x y 1 c = drawPixel W H x y c := by
  by_cases hout : OutsideFrame W H x y
  · rw [drawFastHLine_nothing (.inl hout), drawPixel_outside hout]
  · rw [drawFastHLine_run (by omega), drawPixel_inside hout, show min 1 (W - x) = 1 by omega, Int.add_sub_cancel]
    rfl

/-! ## A 45-degree line (R128 (b)) -/

/-- On a 45-degree line an iteration that has nothing pending draws its position, moves the row and has nothing pending
again. -/
theorem lineStep_diagonal {g : LineSetup} (hd : g.dy = g.dx) {v : LineVars} (he : v.err < g.dx) :
    lineStep g v.xb v = ([dotCall g v.xb v.y], { v with xb := v.xb + 1, y := v.y + g.ystep }) := by
  rw [lineStep, if_pos (by omega), if_neg (by simp), hd, Int.sub_add_cancel]

/-- The loop of a 45-degree line draws one pixel an iteration. -/
theorem lineLoop_diagonal {g : LineSetup} (hd : g.dy = g.dx) (n : Nat) {v : LineVars} (he : v.err < g.dx) :
    lineLoop g n v.xb v = ((List.range n).map (fun k : Nat => dotCall g (v.xb + (k : Int)) (v.y + g.ystep * k)),
      { v with xb := v.xb + (n : Int), y := v.y + g.ystep * n }) := by
  induction n generalizing v with
  | zero => simp [lineLoop_zero]
  | succ n ih =>
    have hrest := ih (v := { v with xb := v.xb + 1, y := v.y + g.ystep }) he
    simp only [lineLoop_succ, lineStep_diagonal hd he, hrest, List.range_succ_eq_map]
    simp [mul_add, add_assoc, add_comm (1 : Int), add_comm g.ystep]

/-- A 45-degree set-up is drawn pixel by pixel, and nothing is left to flush. -/
theorem lineGeneral_diagonal {g : LineSetup} (hg : SetupOk g) (hd : g.dy = g.dx) :
    lineGeneral g = (List.range (g.dx + 1).toNat).map
      (fun k : Nat => dotCall g (g.x0 + (k : Int)) (g.y0 + g.ystep * k)) := by
  have hdx := hg.dxPos
  have hfar := hg.far
  have hloop := lineLoop_diagonal hd (g.dx + 1).toNat (v := lineStart g) (by simp only [lineStart]; omega)
  rw [lineGeneral, show g.x0 = (lineStart g).xb from rfl, hloop, lineFlush_none, List.append_nil]
  · rfl
  · simp only [lineStart]
    omega

/-! ## The points of a line (R124, R125, R128 (c)) -/

section
variable {x0 y0 x1 y1 : Int}

/-- A line that is not steep and has its left end first. -/
theorem linePoints_flat (hs : ¬(y1 - y0).natAbs > (x1 - x0).natAbs) (h : x0 ≤ x1) :
    linePoints x0 y0 x1 y1 = risingPoints x0 y0 x1 y1 := by rw [linePoints, if_neg hs, if_pos h]

/-- A steep line that has its upper end first. -/
theorem linePoints_steep (hs : (y1 - y0).natAbs > (x1 - x0).natAbs) (h : y0 ≤ y1) :
    linePoints x0 y0 x1 y1 = (risingPoints y0 x0 y1 x1).map Prod.swap := by rw [linePoints, if_pos hs, if_pos h]

/-- A line has the same points in the same order from either endpoint (R128 (d)). -/
theorem linePoints_symm (x0 y0 x1 y1 : Int) : linePoints x0 y0 x1 y1 = linePoints x1 y1 x0 y0 := by
  have hx : (x0 - x1).natAbs = (x1 - x0).natAbs := by omega
  have hy : (y0 - y1).natAbs = (y1 - y0).natAbs := by omega
  unfold linePoints
  rw [hx, hy]
  split
  · rcases Int.lt_or_gt_of_ne (show y0 ≠ y1 by omega) with h | h
    · rw [if_pos (by omega), if_neg (by omega)]
    · rw [if_neg (by omega), if_pos (by omega)]
  · rcases Int.lt_trichotomy x0 x1 with h | h | h
    · rw [if_pos (by omega), if_neg (by omega)]
    · obtain rfl : y0 = y1 := by omega
      rw [h]
    · rw [if_neg (by omega), if_pos (by omega)]

/-- From one of its two endpoints a line runs forward. -/
theorem runsForward_of_not (h : ¬RunsForward x0 y0 x1 y1) : RunsForward x1 y1 x0 y0 := by
  unfold RunsForward at *
  split at h <;> split <;> omega

/-- A line that runs forward starts at its first endpoint and ends at its second. -/
theorem linePoints_ends (h : RunsForward x0 y0 x1 y1) :
    (linePoints x0 y0 x1 y1).head? = some (x0, y0) ∧ (linePoints x0 y0 x1 y1).getLast? = some (x1, y1) := by
  unfold RunsForward at h
  split at h
  · rename_i hs
    obtain ⟨hhead, hlast⟩ := risingPoints_ends h (by omega : (x1 - x0).natAbs ≤ y1 - y0)
    simp [linePoints_steep hs h, hhead, hlast]
  · rename_i hs
    rw [linePoints_flat hs h]
    exact risingPoints_ends h (by omega)

theorem linePoints_horizontal (h : x0 ≤ x1) (y : Int) :
    linePoints x0 y x1 y = (List.range (x1 - x0 + 1).toNat).map (fun k : Nat => (x0 + (k : Int), y)) := by
  simp [linePoints_flat, h, risingPoints]

theorem linePoints_vertical (h : y0 < y1) (x : Int) :
    linePoints x y0 x y1 = (List.range (y1 - y0 + 1).toNat).map (fun k : Nat => (x, y0 + (k : Int))) := by
  rw [linePoints_steep (by omega) (by omega)]
  simp [risingPoints]

end

/-- The calls S3 to S6 make cover the line's points, in order (R123 to R126). -/
theorem lineClamped_covers (x0 y0 x1 y1 : Int) :
    (lineClamped x0 y0 x1 y1).flatMap callPoints = linePoints x0 y0 x1 y1 := by
  by_cases hy : y0 = y1
  · subst hy
    rw [lineClamped_horizontal, List.flatMap_singleton, callPoints, absVal_eq]
    rcases Int.le_total x0 x1 with h | h
    · rw [linePoints_horizontal h, min_eq_left h, max_eq_left (by omega)]
    · rw [linePoints_symm, linePoints_horizontal h, min_eq_right h, max_eq_right (by omega), Int.neg_sub]
  by_cases hx : x0 = x1
  · subst hx
    rw [lineClamped_vertical hy, List.flatMap_singleton, callPoints, absVal_eq]
    rcases Int.lt_or_gt_of_ne hy with h | h
    · rw [linePoints_vertical h, min_eq_left (by omega), max_eq_left (by omega)]
    · rw [linePoints_symm, linePoints_vertical h, min_eq_right (by omega), max_eq_right (by omega), Int.neg_sub]
  · rw [lineClamped_general hx hy, lineGeneral_covers (lineSetup_ok (.inl hx)), lineSetup_points]

/-- The calls of a line that is not rejected cover the points between its clamped endpoints, in order (R128 (c)). -/
theorem lineCalls_covers {W H x0 y0 x1 y1 : Int} (h : ¬LineRejected W H x0 y0 x1 y1) :
    (lineCalls W H x0 y0 x1 y1).flatMap callPoints = linePoints (max x0 0) (max y0 0) (max x1 0) (max y1 0) := by
  rw [lineCalls_clamped h, lineClamped_covers]

/-! ## The points and the segment (R128 (c)) -/

/-- The point lies in the rectangle of the two endpoints and, along the minor axis, within half a pixel of the segment
between them. -/
def NearSegment (a b a' b' : Int) (p : Int × Int) : Prop :=
  min a a' ≤ p.1 ∧ p.1 ≤ max a a' ∧ min b b' ≤ p.2 ∧ p.2 ≤ max b b' ∧
    2 * ((p.2 - b) * (a' - a) - (p.1 - a) * (b' - b)).natAbs ≤ max (a' - a).natAbs (b' - b).natAbs

section
variable {a b a' b' : Int} {p : Int × Int}

/-- A segment is the same from either endpoint. -/
theorem nearSegment_symm (h : NearSegment a b a' b' p) : NearSegment a' b' a b p := by
  obtain ⟨hx0, hx1, hy0, hy1, hdist⟩ := h
  have hcross : (p.2 - b') * (a - a') - (p.1 - a') * (b - b') = -((p.2 - b) * (a' - a) - (p.1 - a) * (b' - b)) := by ring
  refine ⟨by omega, by omega, by omega, by omega, ?_⟩
  rw [hcross, Int.natAbs_neg]
  omega

/-- Exchanging the axes keeps a point as near as it was. -/
theorem nearSegment_swap (h : NearSegment a b a' b' p) : NearSegment b a b' a' p.swap := by
  obtain ⟨hx0, hx1, hy0, hy1, hdist⟩ := h
  have hcross : (p.1 - a) * (b' - b) - (p.2 - b) * (a' - a) = -((p.2 - b) * (a' - a) - (p.1 - a) * (b' - b)) := by ring
  refine ⟨hy0, hy1, hx0, hx1, ?_⟩
  rw [Prod.fst_swap, Prod.snd_swap, hcross, Int.natAbs_neg]
  omega

end

/-- The row stays between the two ends of the line. -/
theorem rowsAdvanced_range {dx dy : Int} (hdx : 0 < dx) (h0 : 0 ≤ dy) (h1 : dy ≤ dx) {k : Nat} (hk : (k : Int) ≤ dx) :
    0 ≤ rowsAdvanced dx dy k ∧ rowsAdvanced dx dy k ≤ dy := by
  have hfirst := rowsAdvanced_mono hdx h0 h1 (Nat.zero_le k)
  have hlast := rowsAdvanced_mono hdx h0 h1 (show k ≤ dx.toNat by omega)
  rw [rowsAdvanced_zero hdx] at hfirst
  rw [rowsAdvanced_end hdx] at hlast
  exact ⟨hfirst, hlast⟩

/-- The accumulator's bounds keep the row within half a pixel of the exact height `k * dy / dx` (R124, R125). -/
theorem rowsAdvanced_near {dx : Int} (hdx : 0 < dx) (dy : Int) (k : Nat) :
    2 * (rowsAdvanced dx dy k * dx - k * dy).natAbs ≤ dx := by
  obtain ⟨hlo, hhi⟩ := rowsAdvanced_bounds hdx dy k
  generalize rowsAdvanced dx dy k * dx = moved, k * dy = due at *
  omega

/-- A row that moves towards the far end by no more than the distance stays between the two ends. -/
theorem sign_mul_between {d r : Int} (h0 : 0 ≤ r) (h1 : r ≤ d.natAbs) : min 0 d ≤ d.sign * r ∧ d.sign * r ≤ max 0 d := by
  rcases Int.lt_trichotomy d 0 with h | rfl | h
  · rw [Int.sign_eq_neg_one_of_neg h]
    omega
  · simp
  · rw [Int.sign_eq_one_of_pos h]
    omega

theorem natAbs_sign_mul_le (d e : Int) : (d.sign * e).natAbs ≤ e.natAbs := by
  rw [Int.natAbs_mul, Int.natAbs_sign]
  split <;> omega

/-- Every point of a line whose second coordinate is the minor one is near the segment. -/
theorem risingPoints_near {a b a' b' : Int} (h : a ≤ a') (hm : (b' - b).natAbs ≤ a' - a) :
    ∀ p ∈ risingPoints a b a' b', NearSegment a b a' b' p := by
  intro p hp
  obtain ⟨k, hk, rfl⟩ := List.mem_map.mp hp
  rw [List.mem_range] at hk
  rcases Int.lt_or_eq_of_le h with h | rfl
  · obtain ⟨hr0, hr1⟩ := rowsAdvanced_range (dx := a' - a) (k := k) (by omega) (Int.natCast_nonneg _) hm (by omega)
    have hrow := sign_mul_between hr0 hr1
    have hnear := rowsAdvanced_near (dx := a' - a) (by omega) (b' - b).natAbs k
    generalize rowsAdvanced (a' - a) (b' - b).natAbs k = r at hrow hnear
    have hcross : (b + (b' - b).sign * r - b) * (a' - a) - (a + k - a) * (b' - b)
        = (b' - b).sign * (r * (a' - a) - k * (b' - b).natAbs) := by
      linear_combination (k : Int) * Int.sign_mul_natAbs (b' - b)
    have hle := natAbs_sign_mul_le (b' - b) (r * (a' - a) - k * (b' - b).natAbs)
    refine ⟨?_, ?_, ?_, ?_, ?_⟩ <;> dsimp only
    · omega
    · omega
    · omega
    · omega
    · rw [hcross]
      omega
  · obtain rfl : b = b' := by omega
    obtain rfl : k = 0 := by omega
    simp [NearSegment]

/-- Every point of a line that runs forward is near its segment: a steep one is a line with the axes exchanged. -/
theorem linePoints_near_of_forward {x0 y0 x1 y1 : Int} (h : RunsForward x0 y0 x1 y1) :
    ∀ p ∈ linePoints x0 y0 x1 y1, NearSegment x0 y0 x1 y1 p := by
  intro p hp
  unfold RunsForward at h
  split at h
  · rename_i hs
    rw [linePoints_steep hs h] at hp
    obtain ⟨q, hq, rfl⟩ := List.mem_map.mp hp
    exact nearSegment_swap (risingPoints_near h (by omega) q hq)
  · rename_i hs
    rw [linePoints_flat hs h] at hp
    exact risingPoints_near h (by omega) p hp

/-- Every point of a line is near the segment between its endpoints (R128 (c)). -/
theorem linePoints_near (x0 y0 x1 y1 : Int) : ∀ p ∈ linePoints x0 y0 x1 y1, NearSegment x0 y0 x1 y1 p := by
  intro p hp
  by_cases h : RunsForward x0 y0 x1 y1
  · exact linePoints_near_of_forward h p hp
  · rw [linePoints_symm] at hp
    exact nearSegment_symm (linePoints_near_of_forward (runsForward_of_not h) p hp)

theorem length_risingPoints (a b a' b' : Int) : (risingPoints a b a' b').length = (a' - a + 1).toNat := by
  simp [risingPoints]

/-- One point for each position of the major axis (R125). -/
theorem length_linePoints (x0 y0 x1 y1 : Int) :
    (linePoints x0 y0 x1 y1).length = max (x1 - x0).natAbs (y1 - y0).natAbs + 1 := by
  unfold linePoints
  split <;> split <;> simp only [List.length_map, length_risingPoints] <;> omega

/-! ## What the calls draw (R31, R128 (c)) -/

/-- The events are bursts one after another, each within the window contract, whose pixels are those of the points that
lie in the frame, in order and in this colour (R31). -/
def DrawsInFrame (W H : Nat) (c : Word) (ps : List (Int × Int)) (es : List Event) : Prop :=
  ∃ bs : List Burst, es = eventsOf (bs.flatMap Burst.transactions) ∧ (∀ b ∈ bs, b.Ok W H) ∧
    bs.flatMap Burst.pixels = (ps.filter (inFrame W H)).map (fun p => ((p.1.toNat, p.2.toNat), c))

section
variable {W H : Nat} {c : Word}

theorem inFrame_iff {x y : Int} : inFrame W H (x, y) = true ↔ ¬OutsideFrame W H x y := by
  simp only [inFrame, decide_eq_true_eq]
  omega

theorem drawsInFrame_append {ps qs : List (Int × Int)} {es fs : List Event} (he : DrawsInFrame W H c ps es)
    (hf : DrawsInFrame W H c qs fs) : DrawsInFrame W H c (ps ++ qs) (es ++ fs) := by
  obtain ⟨bs, rfl, hbs, hpix⟩ := he
  obtain ⟨ds, rfl, hds, hpix'⟩ := hf
  refine ⟨bs ++ ds, by rw [List.flatMap_append, eventsOf_append], fun b hb => ?_, ?_⟩
  · exact (List.mem_append.mp hb).elim (hbs b) (hds b)
  · rw [List.flatMap_append, hpix, hpix', List.filter_append, List.map_append]

theorem drawsInFrame_nil : DrawsInFrame W H c [] [] := ⟨[], rfl, by simp, rfl⟩

section
variable {f : Nat → Int × Int} {m n : Nat}

/-- A run of points all outside the frame is drawn by nothing. -/
theorem drawsInFrame_nothing (h : ∀ k < n, ¬inFrame W H (f k)) : DrawsInFrame W H c ((List.range n).map f) [] :=
  ⟨[], rfl, by simp, by rw [List.filter_eq_nil_iff.mpr (by simpa using h)]; rfl⟩

/-- Of a run of `n` points that leaves the frame after `m` of them those `m` are in the frame. -/
theorem filter_run (hmn : m ≤ n) (hin : ∀ k < m, inFrame W H (f k)) (hout : ∀ k < n, m ≤ k → ¬inFrame W H (f k)) :
    ((List.range n).map f).filter (inFrame W H) = (List.range m).map f := by
  obtain ⟨r, rfl⟩ := Nat.exists_eq_add_of_le hmn
  rw [List.range_add, List.map_append, List.filter_append, List.filter_eq_self.mpr, List.filter_eq_nil_iff.mpr,
    List.append_nil]
  · simpa using fun k hk => hout (m + k) (Nat.add_lt_add_left hk m) (Nat.le_add_right m k)
  · simpa using hin

/-- A run that leaves the frame after `m` points is drawn by a burst of `m` words on a window that holds those. -/
theorem drawsInFrame_run {x0 y0 x1 y1 : Int} (hok : (colorBurst x0 y0 x1 y1 m c).Ok W H) (hmn : m ≤ n)
    (hin : ∀ k < m, inFrame W H (f k)) (hout : ∀ k < n, m ≤ k → ¬inFrame W H (f k))
    (htarget : ∀ k < m, (colorBurst x0 y0 x1 y1 m c).window.target k = ((f k).1.toNat, (f k).2.toNat)) :
    DrawsInFrame W H c ((List.range n).map f) (eventsOf (colorBurst x0 y0 x1 y1 m c).transactions) := by
  refine ⟨[colorBurst x0 y0 x1 y1 m c], by simp, by simpa using hok, ?_⟩
  rw [List.flatMap_singleton, filter_run hmn hin hout, List.map_map]
  refine (pixels_replicate m c _).trans (List.map_congr_left fun k hk => ?_)
  exact congrArg (·, c) (htarget k (List.mem_range.mp hk))

end

/-- Words of a window one row high go along the row (R31). -/
theorem target_of_row {v : Window} {k : Nat} (hk : k < v.columns) : v.target k = (v.x0 + k, v.y0) :=
  (target_eq_iff (b := 0) hk).mpr (by omega)

/-- Words of a window one column wide go down the column (R31). -/
theorem target_of_column {v : Window} (hv : v.columns = 1) (k : Nat) : v.target k = (v.x0, v.y0 + k) :=
  (target_eq_iff (a := 0) (columns_pos v)).mpr (by rw [hv, Nat.one_mul, Nat.add_zero])

/-- R107: a horizontal run whose start is not negative is dropped with a start outside, else cut at the right edge. -/
theorem drawFastHLine_drawsInFrame {x y n : Int} (h : 1 ≤ n → 0 ≤ x ∧ 0 ≤ y) :
    DrawsInFrame W H c (callPoints (.hline x y n)) (drawFastHLine W H x y n c) := by
  by_cases hn : OutsideFrame W H x y ∨ n < 1
  · rw [drawFastHLine_nothing hn]
    exact drawsInFrame_nothing fun k hk => by rw [inFrame_iff]; omega
  · have hok := colorBurst_ok (W := W) (H := H) (x0 := x) (x1 := x + min n (W - x) - 1) (y0 := y) (y1 := y)
      (n := (min n (W - x)).toNat) (by omega) (by omega) (by omega) (by omega) (by omega) (by omega)
      (by rw [sub_self, zero_add, mul_one]; omega) c
    rw [drawFastHLine_run hn]
    refine drawsInFrame_run hok (by omega) (fun k hk => inFrame_iff.mpr (by omega))
      (fun k hk hm => by rw [inFrame_iff]; omega) fun k hk => ?_
    rw [target_of_row (by simp only [colorBurst, Window.columns]; omega)]
    exact Prod.ext (by simp only [colorBurst]; omega) rfl

/-- R106: a vertical run the same, cut at the bottom edge. -/
theorem drawFastVLine_drawsInFrame {x y n : Int} (h : 1 ≤ n → 0 ≤ x ∧ 0 ≤ y) :
    DrawsInFrame W H c (callPoints (.vline x y n)) (drawFastVLine W H x y n c) := by
  by_cases hn : OutsideFrame W H x y ∨ n < 1
  · rw [drawFastVLine_nothing hn]
    exact drawsInFrame_nothing fun k hk => by rw [inFrame_iff]; omega
  · have hok := colorBurst_ok (W := W) (H := H) (x0 := x) (x1 := x) (y0 := y) (y1 := y + min n (H - y) - 1)
      (n := (min n (H - y)).toNat) (by omega) (by omega) (by omega) (by omega) (by omega) (by omega)
      (by rw [sub_self, zero_add, one_mul]; omega) c
    rw [drawFastVLine_run hn]
    refine drawsInFrame_run hok (by omega) (fun k hk => inFrame_iff.mpr (by omega))
      (fun k hk hm => by rw [inFrame_iff]; omega) fun k hk => ?_
    rw [target_of_column (by simp [colorBurst, Window.columns])]
    exact Prod.ext rfl (by simp only [colorBurst]; omega)

/-- R105: a pixel is drawn as the horizontal run of one. -/
theorem drawPixel_drawsInFrame {x y : Int} (h : 0 ≤ x ∧ 0 ≤ y) :
    DrawsInFrame W H c (callPoints (.pixel x y)) (drawPixel W H x y c) := by
  rw [← drawFastHLine_one]
  simpa [callPoints] using drawFastHLine_drawsInFrame (W := W) (H := H) (c := c) (n := 1) fun _ => h

/-- A call none of whose points is negative draws those that lie in the frame. -/
theorem drawCallEvents_drawsInFrame {k : DrawCall} (h : ∀ p ∈ callPoints k, 0 ≤ p.1 ∧ 0 ≤ p.2) :
    DrawsInFrame W H c (callPoints k) (drawCallEvents W H c k) := by
  cases k with
  | hline x y n => exact drawFastHLine_drawsInFrame fun hn => h (x, y) (by simp [callPoints]; omega)
  | vline x y n => exact drawFastVLine_drawsInFrame fun hn => h (x, y) (by simp [callPoints]; omega)
  | pixel x y => exact drawPixel_drawsInFrame (h (x, y) List.mem_cons_self)

/-- Calls none of whose points is negative draw, in order, those that lie in the frame. -/
theorem drawsInFrame_calls {ks : List DrawCall} (h : ∀ p ∈ ks.flatMap callPoints, 0 ≤ p.1 ∧ 0 ≤ p.2) :
    DrawsInFrame W H c (ks.flatMap callPoints) (ks.flatMap (drawCallEvents W H c)) := by
  induction ks with
  | nil => exact drawsInFrame_nil
  | cons k ks ih =>
    simp only [List.flatMap_cons, List.mem_append] at h ⊢
    exact drawsInFrame_append (drawCallEvents_drawsInFrame fun p hp => h p (.inl hp)) (ih fun p hp => h p (.inr hp))

end

/-! ## The settled statements -/

/-- Settles O36: a rejected line makes no call, so its expansion is empty. -/
theorem lineOffOneSideDrawsNothing : Obligations.LineOffOneSideDrawsNothing := by
  intro x0 y0 x1 y1 c s hm hoff
  refine exec_nothing hm (congrArg emits ?_)
  rw [drawLine, lineCalls_rejected hoff, List.flatMap_nil]

/-- Settles O35: LINE performs the events of all its calls at once, and running the calls performs the same. -/
theorem lineIsItsCallsInOrder : Obligations.LineIsItsCallsInOrder :=
  fun _ _ _ _ c _ hm => ⟨_, exec_of_ready hm _, execAll_callInstr c _ hm⟩

/-- Settles O37: a line with a clamped endpoint is not rejected either, since the frame is at least 1 by 1, and clamping
twice is clamping once. -/
theorem lineClampsNegativeCoordinates : Obligations.LineClampsNegativeCoordinates := by
  intro x0 y0 x1 y1 c s hw hh hwf hin
  obtain ⟨hx0, hy0, hx1, hy1⟩ := hwf
  constructor
  · apply exec_line_congr
    rw [lineCalls_clamped hin, lineCalls_of_nonneg] <;> omega
  · simp only [List.forall_mem_cons]
    refine ⟨?_, ?_, ?_, ?_, by simp⟩ <;> omega

/-- Settles O38: LINE makes one call, and a horizontal fast line of one pixel is that pixel. -/
theorem degenerateLineIsFastLine : Obligations.DegenerateLineIsFastLine := by
  intro x0 y0 x1 y1 c s hm hx0 hy0 hx1 hy1 hin
  have hcalls := lineCalls_of_nonneg hx0 hy0 hx1 hy1 hin
  refine ⟨?_, ?_, ?_⟩
  · rintro rfl
    rw [lineClamped_horizontal, show absVal (x1 - x0) = max x0 x1 - min x0 x1 by rw [absVal_eq]; omega] at hcalls
    exact exec_line_single hm hcalls c
  · rintro rfl hy
    rw [lineClamped_vertical hy, show absVal (y1 - y0) = max y0 y1 - min y0 y1 by rw [absVal_eq]; omega] at hcalls
    exact exec_line_single hm hcalls c
  · rintro rfl rfl
    rw [lineClamped_horizontal, min_self, sub_self] at hcalls
    rw [exec_line_single hm hcalls c]
    exact exec_eq_of_script_eq hm (congrArg emits (drawFastHLine_one _ _ _ _ c))

/-- Settles O39: the calls are the same, and LINE depends on nothing else. -/
theorem lineReversalChangesNothing : Obligations.LineReversalChangesNothing :=
  fun _ _ _ _ c _ => ⟨lineCalls_symm .., exec_line_congr (lineCalls_symm ..) c⟩

/-- Settles O40: the calls cover the line's points, whose ends are known in the direction the line runs. -/
theorem lineRunsCoverBresenhamPoints : Obligations.LineRunsCoverBresenhamPoints := by
  rintro W H x0 y0 x1 y1 _ _ _ _ hin rfl rfl rfl rfl
  rw [lineCalls_covers hin]
  refine ⟨rfl, linePoints_ends, fun hback => ?_⟩
  rw [linePoints_symm]
  exact linePoints_ends (runsForward_of_not hback)

/-- Settles O56: the calls cover the line's points, one a position of the major axis, all near the segment. -/
theorem linePointsLieNearestTheSegment : Obligations.LinePointsLieNearestTheSegment := by
  rintro W H x0 y0 x1 y1 _ _ _ _ hin rfl rfl rfl rfl
  rw [lineCalls_covers hin]
  exact ⟨length_linePoints .., linePoints_near _ _ _ _⟩

/-- Settles O41: the calls draw the points they cover, which lie between the clamped endpoints and so are not
negative. -/
theorem lineWritesBresenhamPixelsInFrame : Obligations.LineWritesBresenhamPixelsInFrame := by
  intro x0 y0 x1 y1 c s t _ _ _ _ hin hexec
  obtain ⟨-, rfl⟩ := exec_next hexec
  have hcovers := lineCalls_covers hin
  obtain ⟨bs, hevents, hok, hpixels⟩ := drawsInFrame_calls (W := s.width) (H := s.height) (c := c)
    (ks := lineCalls s.width s.height x0 y0 x1 y1) fun p hp => by
      obtain ⟨hx, -, hy, -⟩ := linePoints_near _ _ _ _ p (hcovers ▸ hp)
      omega
  refine ⟨bs, ?_, hok, hcovers ▸ hpixels⟩
  rw [← hevents]
  exact congrArg State.trace (perform_emits s _)

/-- Settles O42: the set-up's height is the minor distance, and the loop makes one call a row. -/
theorem lineMakesOneCallPerRow : Obligations.LineMakesOneCallPerRow := by
  intro W H x0 y0 x1 y1 hx0 hy0 hx1 hy1 hx hy hin
  rw [lineCalls_of_nonneg hx0 hy0 hx1 hy1 hin, lineClamped_general hx hy]
  have hcount := lineGeneral_count (lineSetup_ok (.inl hx) : SetupOk (lineSetup x0 y0 x1 y1))
  rw [lineSetup_dy] at hcount
  omega

/-- Settles O43: the set-up of a 45-degree line is not steep and as high as it is long. -/
theorem diagonalLineIsPixels : Obligations.DiagonalLineIsPixels := by
  intro W H x0 y0 x1 y1 hx0 hy0 hy1 hx hd hin
  have habs : absVal (y1 - y0) = x1 - x0 := by rw [absVal_eq]; omega
  have hsetup : lineSetup x0 y0 x1 y1
      = { steep := false, x0 := x0, y0 := y0, x1 := x1, dx := x1 - x0, dy := x1 - x0, ystep := signVal (y1 - y0) } := by
    rw [lineSetup, if_neg (by rw [habs, absVal_eq]; omega), orderedSetup, if_neg (by omega), habs]
  rw [lineCalls_of_nonneg hx0 hy0 (by omega) hy1 hin, lineClamped_general (by omega) (by omega),
    lineGeneral_diagonal (lineSetup_ok (.inl (by omega))) (by rw [hsetup]), hsetup]
  refine List.map_congr_left fun k _ => ?_
  have hrow : y0 + signVal (y1 - y0) * k = if y0 < y1 then y0 + (k : Int) else y0 - k := by
    unfold signVal
    split <;> split <;> omega
  rw [← hrow]
  rfl

end Sys2Proof.Proofs

/-! Colour. COLOR565's word is its three truncated channels side by side; the settled statement of 47_color.md reads its
bits and its value off that form. -/

namespace Sys2Proof.Proofs

open Sys2Proof.Machine
open Sys2Proof.Laws

/-- COLOR565 is accepted in either mode and sets RES (R135, D13, D24). -/
theorem exec_color565 (r g b : Byte) (s : State) :
    exec (.color565 r g b) s = .next { s with res := color565 r g b } := by
  have hacc : acceptedIn (.color565 r g b) s.mode = true := by simp [acceptedIn, acceptedUninit]
  rw [exec_eq_script, if_pos hacc, perform_color565]

/-- The masks and shifts of R135 put the upper 5, 6 and 5 bits of the channels side by side: each bit of the word is one
bit of one channel. -/
theorem color565_eq_append (r g b : Byte) :
    color565 r g b = r.extractLsb' 3 5 ++ g.extractLsb' 2 6 ++ b.extractLsb' 3 5 := by
  apply BitVec.eq_of_getLsbD_eq
  intro i hi
  rw [BitVec.getLsbD_append, BitVec.getLsbD_append]
  interval_cases i <;> simp [color565]

/-- Bits 15:11 are red's upper five. -/
theorem color565_red (r g b : Byte) : (color565 r g b).extractLsb' 11 5 = r.extractLsb' 3 5 := by
  rw [color565_eq_append, BitVec.extractLsb'_append_eq_of_le (by decide), BitVec.extractLsb'_append_eq_left]

/-- Bits 10:5 are green's upper six. -/
theorem color565_green (r g b : Byte) : (color565 r g b).extractLsb' 5 6 = g.extractLsb' 2 6 := by
  rw [color565_eq_append, BitVec.extractLsb'_append_eq_of_le (by decide)]
  exact BitVec.extractLsb'_append_eq_right

/-- Bits 4:0 are blue's upper five. -/
theorem color565_blue (r g b : Byte) : (color565 r g b).extractLsb' 0 5 = b.extractLsb' 3 5 := by
  rw [color565_eq_append]
  exact BitVec.extractLsb'_append_eq_right

/-- Truncating a channel divides it by 8 or 4; its place in the word multiplies it. -/
theorem color565_toNat (r g b : Byte) :
    (color565 r g b).toNat = r.toNat / 8 * 2048 + g.toNat / 4 * 32 + b.toNat / 8 := by
  rw [color565_eq_append, toNat_append_eq_mul_add, toNat_append_eq_mul_add]
  simp only [BitVec.extractLsb'_toNat, Nat.shiftRight_eq_div_pow]
  omega

/-- Settles O44: the result is the word of `color565`, whose channels and value are the lemmas above. -/
theorem color565SetsResult : Obligations.Color565SetsResult := fun r g b s =>
  ⟨color565 r g b, exec_color565 r g b s, color565_red r g b, color565_green r g b, color565_blue r g b,
    color565_toNat r g b⟩

end Sys2Proof.Proofs

/-! Acceptance and termination: what a presented descriptor does in each mode, and how many events an operation adds. The
settled statements of 60_exceptions.md are built on the port's rules and on the burst of each drawing procedure. -/

namespace Sys2Proof.Proofs

open Sys2Proof.Machine
open Sys2Proof.Laws

/-! ## Acceptance by mode (R156) -/

/-- An operation accepted in the current mode performs its expansion (R156). -/
theorem exec_of_accepted {i : Instr} {s : State} (hacc : acceptedIn i s.mode = true) :
    exec i s = .next (s.perform (script i s)) := by
  rw [exec_eq_script, if_pos hacc]

/-- An operation not accepted in the current mode is refused by name (R156). -/
theorem exec_of_not_accepted {i : Instr} {s : State} (hacc : ¬acceptedIn i s.mode = true) :
    exec i s = .refused .notReady := by
  rw [exec_eq_script, if_neg hacc]

/-- What is accepted in `UNINIT` is accepted in either mode (R156). -/
theorem acceptedIn_of_acceptedUninit {i : Instr} (h : acceptedUninit i = true) (m : Mode) : acceptedIn i m = true := by
  simp [acceptedIn, h]

/-- In `UNINIT` no operation but INIT and COLOR565 is accepted (R156, D13). -/
theorem not_acceptedIn_uninit {i : Instr} {m : Mode} (hm : m = .uninit) (hinit : i ≠ .init)
    (hcol : ∀ r g b, i ≠ .color565 r g b) : ¬acceptedIn i m = true := by
  intro hacc
  obtain hready | h | ⟨r, g, b, h⟩ := accepted_cases hacc
  · rw [hm] at hready
    cases hready
  · exact hinit h
  · exact hcol r g b h

section
variable {s : State} {d : Descriptor} {rest : List HostInput} {i : Instr}

/-- A block at rest to which an accepted operation is presented performs its expansion, completes it, and has the
descriptor in the latch and the input taken (R12, R23). -/
theorem step_present_accepted (hb : s.busy = false) (hin : s.inputs = .present d :: rest) (hd : decode d = .ok i)
    (hacc : acceptedIn i s.mode = true) :
    step s = .next { (s.perform (script i s)).complete with latch := splitDescriptor d, inputs := rest } := by
  have hscript : script i ({ s with inputs := rest }.accept d) = script i s := script_withPort i s true _ s.todo rest
  have hexec := exec_of_accepted (s := { s with inputs := rest }.accept d) hacc
  rw [step_present_ok hb hin hd, hexec, hscript, completing, accept_perform_complete]

/-- A block at rest refuses an operation its mode does not accept, also when it is presented (R156). -/
theorem step_present_not_accepted (hb : s.busy = false) (hin : s.inputs = .present d :: rest) (hd : decode d = .ok i)
    (hacc : ¬acceptedIn i s.mode = true) : step s = .refused .notReady := by
  have hexec := exec_of_not_accepted (s := { s with inputs := rest }.accept d) hacc
  rw [step_present_ok hb hin hd, hexec, completing]

end

/-! ## How many events an operation adds (R165) -/

/-- Performing events lengthens the trace by their number (R9). -/
theorem length_trace_perform_emits (s : State) (es : List Event) :
    (s.perform (emits es)).trace.length = s.trace.length + es.length := by
  rw [perform_emits, List.length_append]

theorem length_trace_perform_emits_le (s : State) {es : List Event} {n : Nat} (h : es.length ≤ n) :
    (s.perform (emits es)).trace.length ≤ s.trace.length + n :=
  (length_trace_perform_emits s es).trans_le (Nat.add_le_add_left h _)

section
variable (W H : Nat)

theorem length_drawPixel_le (x y : Int) (c : Word) : (drawPixel W H x y c).length ≤ 48 := by
  by_cases hout : OutsideFrame W H x y
  · simp [drawPixel_outside hout]
  · rw [drawPixel_inside hout, colorBurst_length]

/-- The clipped run is no longer than the frame is high. -/
theorem length_drawFastVLine_le (x y n : Int) (c : Word) : (drawFastVLine W H x y n c).length ≤ 4 * (11 + H) := by
  by_cases hn : OutsideFrame W H x y ∨ n < 1
  · simp [drawFastVLine_nothing hn]
  · rw [drawFastVLine_run hn, colorBurst_length]
    omega

/-- The clipped run is no longer than the frame is wide. -/
theorem length_drawFastHLine_le (x y n : Int) (c : Word) : (drawFastHLine W H x y n c).length ≤ 4 * (11 + W) := by
  by_cases hn : OutsideFrame W H x y ∨ n < 1
  · simp [drawFastHLine_nothing hn]
  · rw [drawFastHLine_run hn, colorBurst_length]
    omega

/-- A frame with a point inside it has room for one pixel, and the clipped rectangle is no larger than the frame. -/
theorem length_fillRect_le (x y w h : Int) (c : Word) : (fillRect W H x y w h c).length ≤ 4 * (11 + W * H) := by
  by_cases hn : OutsideFrame W H x y ∨ w < 1 ∨ h < 1
  · simp [fillRect_nothing hn]
  by_cases h1 : min w (W - x) = 1 ∨ min h (H - y) = 1
  · have hroom : 0 < W * H := Nat.mul_pos (by omega) (by omega)
    have hpixel := length_drawPixel_le W H x y c
    rw [fillRect_pixel hn h1]
    omega
  · have hsize : min w (W - x) * min h (H - y) ≤ (W : Int) * H :=
      mul_le_mul (by omega) (by omega) (by omega) (by omega)
    rw [← Nat.cast_mul] at hsize
    rw [fillRect_burst hn h1, colorBurst_length]
    omega

end

/-- A line with endpoints in 0..32767 makes one call a row, so at most 32768. -/
theorem length_lineClamped_le {x0 y0 x1 y1 : Int} (hx0 : 0 ≤ x0 ∧ x0 ≤ 32767) (hx1 : 0 ≤ x1 ∧ x1 ≤ 32767) :
    (lineClamped x0 y0 x1 y1).length ≤ 32768 := by
  by_cases hy : y0 = y1
  · simp [hy, lineClamped_horizontal]
  by_cases hx : x0 = x1
  · simp [hx, lineClamped_vertical hy]
  · have hcount := lineGeneral_count (lineSetup_ok (.inl hx) : SetupOk (lineSetup x0 y0 x1 y1))
    rw [lineSetup_dy] at hcount
    rw [lineClamped_general hx hy]
    omega

/-- Clamping brings `int16` endpoints into 0..32767 (R122). -/
theorem length_lineCalls_le (W H : Int) {x0 y0 x1 y1 : Int} (hx0 : InInt16 x0) (hx1 : InInt16 x1) :
    (lineCalls W H x0 y0 x1 y1).length ≤ 32768 := by
  by_cases hrej : LineRejected W H x0 y0 x1 y1
  · simp [lineCalls_rejected hrej]
  · rw [lineCalls_clamped hrej]
    exact length_lineClamped_le (by omega) (by omega)

/-! ## The settled statements -/

/-- Settles O11: in both cases the sample settles the block at once. -/
theorem idleBlockHoldsState : Obligations.IdleBlockHoldsState := by
  refine ⟨fun s hb hin => step_of_settled ?_, fun s rest hb hin => step_of_settled ?_⟩
  · rw [State.poll, hin]
    simp [hb]
  · rw [State.poll, hin]
    simp [hb]

/-- Settles O13: `READY` accepts every operation, no expansion leaves `READY`, and the trace only grows. -/
theorem readyBlockRunsEveryOperation : Obligations.ReadyBlockRunsEveryOperation := by
  intro s d rest i hb hm hin hd
  have hacc : acceptedIn i s.mode = true := by simp [acceptedIn, hm]
  exact ⟨_, step_present_accepted hb hin hd hacc, rfl, perform_mode_of_ready hm _, rfl, rfl, perform_trace_prefix s _⟩

/-- Settles O14: acceptance is by the operation alone; of the two accepted ones INIT ends in `READY` and COLOR565 leaves
MODE alone. -/
theorem uninitAcceptsOnlyInitAndColor : Obligations.UninitAcceptsOnlyInitAndColor := by
  refine ⟨fun i s hm hinit hcol => exec_of_not_accepted (not_acceptedIn_uninit hm hinit hcol),
    fun s d rest i hb hm hin hd => ⟨fun hinit hcol => ?_, ?_, ?_⟩⟩
  · exact step_present_not_accepted hb hin hd (not_acceptedIn_uninit hm hinit hcol)
  · rintro rfl
    exact ⟨_, step_present_accepted hb hin hd (acceptedIn_of_acceptedUninit rfl _), perform_init_mode s s⟩
  · rintro r g b rfl
    exact ⟨_, step_present_accepted hb hin hd (acceptedIn_of_acceptedUninit rfl _),
      (perform_script_mode (i := .color565 r g b) nofun s s).trans hm⟩

/-- Settles O51: an operation made of events adds their number; the fixed expansions are counted as they stand, and the
drawing procedures and LINE's calls are bounded by the lemmas above. -/
theorem eventCountsAreBounded : Obligations.EventCountsAreBounded := by
  intro i s t hwf hexec
  obtain ⟨-, rfl⟩ := exec_next hexec
  refine ⟨?wrcmd_wrdat8, ?wrdat16, ?invert, ?setrot, ?setwin, ?init, ?color565, ?pixel, ?fastLines, ?fills, ?line⟩
  case wrcmd_wrdat8 =>
    rintro b (rfl | rfl)
    · exact length_trace_perform_emits s (writeCommand b)
    · exact length_trace_perform_emits s (writeData8 b)
  case wrdat16 =>
    rintro w rfl
    exact length_trace_perform_emits s (writeData16 w)
  case invert =>
    rintro on rfl
    exact (length_trace_perform_emits s (invertDisplay on)).trans (by cases on <;> rfl)
  case setrot =>
    rintro r rfl
    rw [perform_setrot, List.length_append]
    rfl
  case setwin =>
    rintro x0 y0 x1 y1 rfl
    exact length_trace_perform_emits s (setAddrWindow x0 y0 x1 y1)
  case init =>
    rintro rfl
    rw [perform_init_trace, List.length_append]
    rfl
  case color565 =>
    rintro r g b rfl
    rw [perform_color565]
  case pixel =>
    rintro x y c rfl
    exact length_trace_perform_emits_le s (length_drawPixel_le s.width s.height x y c)
  case fastLines =>
    rintro x y n c (rfl | rfl)
    · have hle := length_drawFastVLine_le s.width s.height x y n c
      exact length_trace_perform_emits_le s (hle.trans (by omega))
    · have hle := length_drawFastHLine_le s.width s.height x y n c
      exact length_trace_perform_emits_le s (hle.trans (by omega))
  case fills =>
    rintro x y w h c (rfl | rfl)
    · exact length_trace_perform_emits_le s (length_fillRect_le s.width s.height x y w h c)
    · exact length_trace_perform_emits_le s (length_fillRect_le s.width s.height 0 0 s.width s.height c)
  case line =>
    rintro x0 y0 x1 y1 c rfl
    obtain ⟨hx0, -, hx1, -⟩ := hwf
    exact (length_lineCalls_le s.width s.height hx0 hx1).trans (by omega)

end Sys2Proof.Proofs

/-! Reset and hazards: the state a first INIT leaves, and a burst the host builds itself from SETWIN and WRDAT16. The settled
statements of 70_reset_and_hazards.md are built on `perform_init` and on the rules of framed writes. -/

namespace Sys2Proof.Proofs

open Sys2Proof.Machine
open Sys2Proof.Laws

/-! ## Framed writes sent by several operations (R175) -/

/-- Framed writes after framed writes are one sequence of framed writes (R77). -/
theorem perform_framed_perform_framed (s : State) (ts us : List Transaction) :
    (s.perform (emits (eventsOf ts))).perform (emits (eventsOf us)) = s.perform (emits (eventsOf (ts ++ us))) := by
  rw [← perform_append, eventsOf_append, emits, emits, emits, List.map_append]

/-- In `READY`, the first of several operations performs its expansion and the others go on from there (R40). -/
theorem execAll_cons_of_ready {s : State} (hm : s.mode = .ready) (i : Instr) (is : List Instr) :
    execAll (i :: is) s = execAll is (s.perform (script i s)) := by
  rw [execAll, exec_of_ready hm]

/-- In `READY`, one WRDAT16 a word sends the words (R76, R92). -/
theorem execAll_wrdat16 (ws : List Word) {s : State} (hm : s.mode = .ready) :
    execAll (ws.map .wrdat16) s = .next (s.perform (emits (eventsOf (ws.map .data16)))) := by
  induction ws generalizing s with
  | nil => rfl
  | cons w ws ih =>
    have hscript : script (.wrdat16 w) s = emits (eventsOf [.data16 w]) := congrArg emits (writeData16_eq w)
    rw [List.map_cons, execAll_cons_of_ready hm, ih (perform_mode_of_ready hm _), hscript, perform_framed_perform_framed]
    rfl

/-- In `READY`, SETWIN and one WRDAT16 a word send the window sequence and then the words (R92, R175). -/
theorem execAll_setwin_wrdat16 (x0 y0 x1 y1 : Word) (ws : List Word) {s : State} (hm : s.mode = .ready) :
    execAll (.setwin x0 y0 x1 y1 :: ws.map .wrdat16) s
      = .next (s.perform (emits (eventsOf (windowTransactions x0 y0 x1 y1 ++ ws.map .data16)))) := by
  have hscript : script (.setwin x0 y0 x1 y1) s = emits (eventsOf (windowTransactions x0 y0 x1 y1)) :=
    congrArg emits (setAddrWindow_eq x0 y0 x1 y1)
  rw [execAll_cons_of_ready hm, execAll_wrdat16 ws (perform_mode_of_ready hm _), hscript, perform_framed_perform_framed]

/-- After a burst the data lines hold its last word, if it has one (R71). -/
theorem settleAll_burst_d {b : Burst} (hne : b.words ≠ []) (p : Pins) :
    some (settleAll p b.transactions).d = b.words.getLast? := by
  obtain ⟨ws, w, hws⟩ := List.eq_nil_or_concat' b.words |>.resolve_left hne
  rw [Burst.transactions, hws, List.map_append, List.map_singleton, ← List.append_assoc, settleAll_endsWord,
    List.getLast?_concat]

/-- A burst within the contract has a word, since its window holds at least one pixel (R31). -/
theorem burst_words_ne_nil {W H : Nat} {b : Burst} (hok : b.Ok W H) : b.words ≠ [] := by
  obtain ⟨-, hlen⟩ := hok
  have hsize : 0 < b.window.size := Nat.mul_pos (columns_pos b.window) (Nat.succ_pos _)
  exact List.ne_nil_of_length_pos (hlen ▸ hsize)

/-! ## The settled statements -/

/-- Settles O22: the window's transactions and then the words are the burst's transactions, and its last word stays on
the data lines. -/
theorem hostBuiltStreamIsBurst : Obligations.HostBuiltStreamIsBurst := by
  intro s b hm hok
  refine ⟨_, execAll_setwin_wrdat16 _ _ _ _ b.words hm, ?_⟩
  rw [← Burst.transactions, perform_framed]
  exact ⟨rfl, settleAll_burst_d (burst_words_ne_nil hok) s.pins, hm⟩

/-- Settles O28: INIT is accepted in `UNINIT`; of the values stated only RES and D[15:8] come from the state at reset, and
there D[15:8] are 0. -/
theorem cleanEntryAfterFirstInit : Obligations.CleanEntryAfterFirstInit := by
  intro q w h v l d rest hd
  have hdata : hi8 State.reset.pins.d ++ (0x29 : Byte) = (0x0029 : Word) := by decide
  refine ⟨_, step_present_accepted rfl rfl hd (acceptedIn_of_acceptedUninit rfl _), ?_⟩
  rw [perform_init]
  exact ⟨rfl, rfl, rfl, rfl, rfl, congrArg (Pins.mk .cmd .active .idle .active .inactive) hdata⟩

end Sys2Proof.Proofs
